-- ==== Sys2Proof/Word.lean ====
section
/-! DEFINITION. The word of the Intcode core and the exact integers it is read as (00_scope.md R6, R7). -/

namespace Sys2Proof

/-- A `WORD`: 64 bits, two's complement, the one unit of memory, of the queues, of `pc` and of `rb`
(00_scope.md R6, R8). Its value is `toInt`; a value of the range is written back with `Word.ofInt`. -/
abbrev Word := BitVec 64

/-- The word whose value is `r`, for an `r` of the range `[-2^63, 2^63 - 1]` (R6). Callers check the range
first (R7: "a result is narrowed to `i64` only by an explicit range check"). -/
def Word.ofInt (r : Int) : Word := BitVec.ofInt 64 r

end Sys2Proof
end

