-- ==== Sys2Proof/Config.lean ====
section
/-! DEFINITION. What an implementation fixes (00_scope.md R6). The spec leaves no value free ("No value is left
unspecified", 70_reset_and_hazards.md R210), so there is no opaque constant here; the one OPEN parameter,
`MEM_WORDS`, is carried by State so that every statement holds for every value of it. -/

namespace Sys2Proof.Config

/-- The upper bound of the OPEN parameter `MEM_WORDS`: `1 <= MEM_WORDS <= 2^62` (00_scope.md R6). -/
abbrev memWordsMax : Nat := 2 ^ 62

/-- The last address of the machine that `State.reset` describes: `MEM_WORDS = 2^20`.
DESIGN CHOICE (log entry 1): the parameter is OPEN (92_eei_decisions.md D3); 2^20 words is the size that
95_test_vectors.md calls sufficient for all of its vectors. No statement rests on it. -/
def resetLastAddr : Fin memWordsMax := ⟨2 ^ 20 - 1, by decide⟩

end Sys2Proof.Config
end

