-- ==== Sys2Proof/Syntax.lean ====
section
/-! DEFINITION. The ten instructions and the three addressing modes (00_scope.md R2, 30_encoding.md R64). -/

namespace Sys2Proof

/-- The addressing mode of one parameter slot (20_memory.md R46). -/
inductive Mode where
  /-- Mode 0: the parameter word is the address. -/
  | position
  /-- Mode 1: the parameter word is the literal; as a destination, the parameter's own location (R49). -/
  | immediate
  /-- Mode 2: `rb` plus the parameter word is the address. -/
  | relative
deriving DecidableEq, Repr

/-- A decoded instruction: an opcode and the modes of the three parameter slots, "one per potential parameter
slot, even if the instruction uses fewer" (30_encoding.md R62). The parameter words are no part of it: decoding
reads the instruction word alone (R63) and each instruction reads its parameters itself (20_memory.md R47, R48;
log entry 13). -/
inductive Instr where
  /-- ADD, opcode 1, width 4: source, source, destination (41_alu.md R100). -/
  | add (m1 m2 m3 : Mode)
  /-- MUL, opcode 2, width 4: source, source, destination (41_alu.md R101). -/
  | mul (m1 m2 m3 : Mode)
  /-- IN, opcode 3, width 2: destination; slots 2 and 3 unused (43_io.md R132). -/
  | inp (m1 m2 m3 : Mode)
  /-- OUT, opcode 4, width 2: source; slots 2 and 3 unused (43_io.md R133). -/
  | out (m1 m2 m3 : Mode)
  /-- JT, opcode 5, width 3: condition, target; slot 3 unused (42_control.md R120). -/
  | jt (m1 m2 m3 : Mode)
  /-- JF, opcode 6, width 3: condition, target; slot 3 unused (42_control.md R121). -/
  | jf (m1 m2 m3 : Mode)
  /-- LT, opcode 7, width 4: source, source, destination (41_alu.md R102). -/
  | lt (m1 m2 m3 : Mode)
  /-- EQ, opcode 8, width 4: source, source, destination (41_alu.md R103). -/
  | eq (m1 m2 m3 : Mode)
  /-- ARB, opcode 9, width 2: source; slots 2 and 3 unused (44_relbase_halt.md R150). -/
  | arb (m1 m2 m3 : Mode)
  /-- HLT, opcode 99, width 1: all three slots unused (44_relbase_halt.md R151). -/
  | hlt (m1 m2 m3 : Mode)
deriving DecidableEq, Repr

end Sys2Proof
end

