-- ==== Sys2Proof/WellFormed.lean ====
section
/-! DEFINITION. Which instruction words are legal (30_encoding.md R61, R62, R69), said by the decimal fields alone and
apart from the decoder, so that the decoder can be held against it. Modes and opcodes are constructors in `Instr`,
so every `Instr` is well formed (proved per constructor in Laws/PerInstr.lean); the words that are not are these
checks' business. -/

namespace Sys2Proof

/-- The decimal digit of weight `10^k` (00_scope.md R7). -/
def decDigit (n k : Nat) : Nat := n / 10 ^ k % 10

/-- The opcodes that exist (00_scope.md R2). -/
def legalOpcodes : List Nat := [1, 2, 3, 4, 5, 6, 7, 8, 9, 99]

/-- Why an instruction word is illegal, or that it is legal (30_encoding.md R69). -/
inductive Legality where
  /-- A legal instruction word. -/
  | legal
  /-- Negative, or low two digits that are no opcode: `UNKNOWN_OPCODE`. -/
  | unknownOpcode
  /-- A legal opcode with a mode digit above 2 or a digit above the ten-thousands place: `INVALID_MODE`. -/
  | invalidMode
deriving DecidableEq, Repr

/-- The legality of the instruction word whose value is `w`, in the order of the checks of R62: sign, opcode,
size, mode digits. -/
def legality (w : Int) : Legality :=
  if w < 0 then .unknownOpcode
  else if w.toNat % 100 ∉ legalOpcodes then .unknownOpcode
  else if 100000 ≤ w then .invalidMode
  else if 2 < decDigit w.toNat 2 ∨ 2 < decDigit w.toNat 3 ∨ 2 < decDigit w.toNat 4 then .invalidMode
  else .legal

end Sys2Proof
end

