-- ==== Sys2Proof/Decode.lean ====
section
/-! DEFINITION. The instruction decoder, total on every word and rejecting by name (30_encoding.md R62), the encoder
(R61), the assembly notation (R70, R71), and the reading of an opcode-table word that the host asks for. -/

namespace Sys2Proof

/-! ### Decoding -/

/-- What the decoder answers for a word: an instruction, or the fault it raises (30_encoding.md R62). -/
inductive Decoded where
  /-- The word decodes. -/
  | instr (i : Instr)
  /-- `UNKNOWN_OPCODE`: a negative word, or low two digits that are no opcode. -/
  | unknownOpcode
  /-- `INVALID_MODE`: a legal opcode with a digit the source gives no meaning. -/
  | invalidMode
deriving DecidableEq, Repr

/-- The mode a mode digit selects: 0, 1 or 2 (20_memory.md R46); none for 3 to 9 (30_encoding.md R62). -/
def Mode.ofDigit : Nat → Option Mode
  | 0 => some .position
  | 1 => some .immediate
  | 2 => some .relative
  | _ => none

/-- The opcode map of 30_encoding.md R64: the instruction an opcode names, awaiting its modes. -/
def Instr.ofOpcode : Nat → Option (Mode → Mode → Mode → Instr)
  | 1 => some .add
  | 2 => some .mul
  | 3 => some .inp
  | 4 => some .out
  | 5 => some .jt
  | 6 => some .jf
  | 7 => some .lt
  | 8 => some .eq
  | 9 => some .arb
  | 99 => some .hlt
  | _ => none

/-- The decimal digit of weight `10^k` of a non-negative word (00_scope.md R7). -/
def digitOf (n k : Nat) : Nat := n / 10 ^ k % 10

/-- `Decode(w)` of 30_encoding.md R62, its checks in the rule's order: a negative word, the opcode, a word of 100000
or more, the three mode digits. Pure (R63): the word is its only argument. -/
def decode (w : Word) : Decoded :=
  if w.toInt < 0 then .unknownOpcode
  else
    match Instr.ofOpcode (w.toNat % 100) with
    | none => .unknownOpcode
    | some mk =>
      if 100000 ≤ w.toNat then .invalidMode
      else
        match Mode.ofDigit (digitOf w.toNat 2), Mode.ofDigit (digitOf w.toNat 3), Mode.ofDigit (digitOf w.toNat 4) with
        | some m1, some m2, some m3 => .instr (mk m1 m2 m3)
        | _, _, _ => .invalidMode

/-! ### Encoding -/

/-- The digit of a mode (20_memory.md R46). -/
def Mode.digit : Mode → Nat
  | .position => 0
  | .immediate => 1
  | .relative => 2

/-- The opcode number (30_encoding.md R64). -/
def Instr.opcode : Instr → Nat
  | .add _ _ _ => 1
  | .mul _ _ _ => 2
  | .inp _ _ _ => 3
  | .out _ _ _ => 4
  | .jt _ _ _ => 5
  | .jf _ _ _ => 6
  | .lt _ _ _ => 7
  | .eq _ _ _ => 8
  | .arb _ _ _ => 9
  | .hlt _ _ _ => 99

/-- The modes of the three parameter slots. -/
def Instr.modes : Instr → Mode × Mode × Mode
  | .add m1 m2 m3 => (m1, m2, m3)
  | .mul m1 m2 m3 => (m1, m2, m3)
  | .inp m1 m2 m3 => (m1, m2, m3)
  | .out m1 m2 m3 => (m1, m2, m3)
  | .jt m1 m2 m3 => (m1, m2, m3)
  | .jf m1 m2 m3 => (m1, m2, m3)
  | .lt m1 m2 m3 => (m1, m2, m3)
  | .eq m1 m2 m3 => (m1, m2, m3)
  | .arb m1 m2 m3 => (m1, m2, m3)
  | .hlt m1 m2 m3 => (m1, m2, m3)

/-- The number of words an instruction occupies, parameter count + 1, from the opcode alone (30_encoding.md R64, R66). -/
def Instr.width : Instr → Nat
  | .add _ _ _ => 4
  | .mul _ _ _ => 4
  | .inp _ _ _ => 2
  | .out _ _ _ => 2
  | .jt _ _ _ => 3
  | .jf _ _ _ => 3
  | .lt _ _ _ => 4
  | .eq _ _ _ => 4
  | .arb _ _ _ => 2
  | .hlt _ _ _ => 1

/-- The instruction word's value, `op + 100*m1 + 1000*m2 + 10000*m3` (30_encoding.md R61). -/
def Instr.value (i : Instr) : Nat :=
  i.opcode + 100 * i.modes.1.digit + 1000 * i.modes.2.1.digit + 10000 * i.modes.2.2.digit

/-- The instruction word of an instruction (30_encoding.md R61). The parameter words follow it in memory and are whole
words with no fields (R65, R67). -/
def encode (i : Instr) : Word := BitVec.ofNat 64 i.value

/-- A well-formed instruction: its word is legal by the checks of WellFormed.lean. It holds of every `Instr`. -/
abbrev Instr.WellFormed (i : Instr) : Prop := legality i.value = .legal

/-! ### Assembly notation (30_encoding.md R70, R71) -/

/-- An operand as R70 writes it: `[n]`, `#n` (`@n` on a destination), `rb[n]`. -/
structure AsmOperand where
  /-- The mode its notation names. -/
  mode : Mode
  /-- The parameter word `n`. -/
  param : Word
deriving DecidableEq, Repr

/-- One line of assembly: a mnemonic and its operands (R70). -/
inductive AsmLine where
  /-- `ADD p1, p2, p3` -/
  | add (p1 p2 p3 : AsmOperand)
  /-- `MUL p1, p2, p3` -/
  | mul (p1 p2 p3 : AsmOperand)
  /-- `IN p1` -/
  | inp (p1 : AsmOperand)
  /-- `OUT p1` -/
  | out (p1 : AsmOperand)
  /-- `JT p1, p2` -/
  | jt (p1 p2 : AsmOperand)
  /-- `JF p1, p2` -/
  | jf (p1 p2 : AsmOperand)
  /-- `LT p1, p2, p3` -/
  | lt (p1 p2 p3 : AsmOperand)
  /-- `EQ p1, p2, p3` -/
  | eq (p1 p2 p3 : AsmOperand)
  /-- `ARB p1` -/
  | arb (p1 : AsmOperand)
  /-- `HLT` -/
  | hlt
deriving DecidableEq, Repr

/-- The instruction a line stands for; the mode digits of unused slots are 0. -/
def AsmLine.instr : AsmLine → Instr
  | .add p1 p2 p3 => .add p1.mode p2.mode p3.mode
  | .mul p1 p2 p3 => .mul p1.mode p2.mode p3.mode
  | .inp p1 => .inp p1.mode .position .position
  | .out p1 => .out p1.mode .position .position
  | .jt p1 p2 => .jt p1.mode p2.mode .position
  | .jf p1 p2 => .jf p1.mode p2.mode .position
  | .lt p1 p2 p3 => .lt p1.mode p2.mode p3.mode
  | .eq p1 p2 p3 => .eq p1.mode p2.mode p3.mode
  | .arb p1 => .arb p1.mode .position .position
  | .hlt => .hlt .position .position .position

/-- The parameter words of a line, in order. -/
def AsmLine.params : AsmLine → List Word
  | .add p1 p2 p3 => [p1.param, p2.param, p3.param]
  | .mul p1 p2 p3 => [p1.param, p2.param, p3.param]
  | .inp p1 => [p1.param]
  | .out p1 => [p1.param]
  | .jt p1 p2 => [p1.param, p2.param]
  | .jf p1 p2 => [p1.param, p2.param]
  | .lt p1 p2 p3 => [p1.param, p2.param, p3.param]
  | .eq p1 p2 p3 => [p1.param, p2.param, p3.param]
  | .arb p1 => [p1.param]
  | .hlt => []

/-- The words of a line: its instruction word and then its parameter words (R65, R70). -/
def AsmLine.words (l : AsmLine) : List Word := encode l.instr :: l.params

/-- The idiom `JMP t`, which is `JT #1, #t` (R71). -/
def AsmLine.jmp (t : Word) : AsmLine := .jt ⟨.immediate, 1⟩ ⟨.immediate, t⟩

/-- The idiom `MOV src, dst`, which is `ADD src, #0, dst` (R71). -/
def AsmLine.mov (src dst : AsmOperand) : AsmLine := .add src ⟨.immediate, 0⟩ dst

/-! ### Opcode-table words -/

/-- The words of an instruction whose bits, in the numbering of the opcode table, are `w`: word `k` is bits
`64*k + 63 .. 64*k`, and every bit at or above `nbits` is 0. Four words, the longest format (30_encoding.md R65). -/
def tableWords (nbits w : Nat) : List Word :=
  let v := w % 2 ^ nbits
  [BitVec.ofNat 64 v, BitVec.ofNat 64 (v / 2 ^ 64), BitVec.ofNat 64 (v / 2 ^ 128), BitVec.ofNat 64 (v / 2 ^ 192)]

/-- The instruction the decoder reads from those words: it decodes the first (R62). -/
def decodeTableWord (nbits w : Nat) : Option Instr :=
  match decode (BitVec.ofNat 64 (w % 2 ^ nbits)) with
  | .instr i => some i
  | .unknownOpcode => none
  | .invalidMode => none

end Sys2Proof
end

