-- ==== Sys2Proof/Machine/State.lean ====
section
/-! DEFINITION. The state of one core instance (10_state.md R34), the reasons a Lean step can stop, and the state after
reset. -/

namespace Sys2Proof.Machine

/-- The execution state register `eng` (10_state.md R24). -/
inductive Eng where
  /-- The next run executes from `pc`. -/
  | running
  /-- The last step was an Input that found `inq` empty (43_io.md R134). -/
  | suspended
  /-- A Halt was executed; nothing runs until reset (44_relbase_halt.md R152). -/
  | halted
  /-- A fault was raised; absorbing but for LOAD (60_exceptions.md R200). -/
  | faulted
deriving DecidableEq, Repr

/-- The fault cause register `FCAUSE` (10_state.md R25, 60_exceptions.md R190). -/
inductive FCause where
  /-- No fault. -/
  | none
  /-- A fetched word with no legal opcode (R191). -/
  | unknownOpcode
  /-- A fetched word with a legal opcode and an illegal mode digit (R192). -/
  | invalidMode
  /-- A resolved address or a taken jump target below 0 (R193). -/
  | negativeAddress
  /-- A resolved address at or above `MEM_WORDS` (R194). -/
  | addressLimit
  /-- An exact result outside the word range (R195). -/
  | overflow
deriving DecidableEq, Repr

/-- Live memory as plain data: (address, word) pairs with addresses strictly rising and no zero word, an unlisted
address reading 0 (20_memory.md R41). The unit is the word, since "the memory has no bytes" (R50; log entry 3). -/
abbrev Memory := List (Nat × Word)

/-- The whole state of one instance, the tuple of 10_state.md R34, and the machine's parameter. -/
structure State where
  /-- `M`, the live memory (R29). -/
  mem : Memory
  /-- `len`, the materialised length of `M` (R29, R32). -/
  len : Nat
  /-- `O`, the original memory; its length is `olen` (R30). -/
  orig : List Word
  /-- `pc` (R21). -/
  pc : Word
  /-- `rb` (R23). -/
  rb : Word
  /-- `eng` (R24). -/
  eng : Eng
  /-- `FCAUSE` (R25). -/
  fcause : FCause
  /-- `FINFO`, a mathematical integer (R26). -/
  finfo : Int
  /-- `inq`, front first (R31). -/
  inq : List Word
  /-- `outq`, front (oldest) first (R31). -/
  outq : List Word
  /-- The model's own field: the last address, `MEM_WORDS - 1`. MEM_WORDS is an OPEN parameter of the machine and no
  state of the spec (R33, 00_scope.md R6); nothing changes it (log entry 1). -/
  lastAddr : Fin Config.memWordsMax
deriving DecidableEq, Repr

/-- `olen`, the length of the original memory (10_state.md R30). -/
def State.olen (s : State) : Nat := s.orig.length

/-- `MEM_WORDS`, the number of addressable words (00_scope.md R6). -/
def State.memWords (s : State) : Nat := s.lastAddr.val + 1

/-- Reasons a Lean step could stop the machine. There are none: every fault of the spec is an exception whose entry the
spec describes (60_exceptions.md R196), so it is a next state in which `eng` is FAULTED (log entry 4). -/
inductive Fault where
deriving DecidableEq, Repr

/-- Reasons the model could refuse a step. No arm of `exec` uses it. -/
inductive Refusal where
  /-- Raised by an arm of `exec` for an instruction whose meaning is not written yet. Safe: nothing is claimed of it. -/
  | notModelled (mnemonic : String)
deriving DecidableEq, Repr

/-- The result of one access or of a part of an instruction: a value and the state after it, or the state left by a
`raise`, which ends the instruction (00_scope.md R9). -/
inductive Access (α : Type) where
  /-- The part completed with this value. -/
  | ok (v : α) (s : State)
  /-- A fault was raised and entered; the instruction makes no further change. -/
  | raised (s : State)
deriving Repr

/-- The state right after reset. The values are those of 70_reset_and_hazards.md R210 and R211; no program is in it, so
`O` is the empty sequence and `len` is 0 (DESIGN CHOICE, log entry 2), and MEM_WORDS is that of log entry 1. -/
def State.reset : State where
  mem := []
  len := 0
  orig := []
  pc := 0
  rb := 0
  eng := .running
  fcause := .none
  finfo := 0
  inq := []
  outq := []
  lastAddr := Config.resetLastAddr

end Sys2Proof.Machine
end

