-- ==== Sys2Proof/Machine/Flags.lean ====
section
/-! DEFINITION. The core "has no flags, condition codes or predicates" (10_state.md R28). What stands in their place:
the range check of a result, the word a comparison writes, and the numeric codes of `eng` and `FCAUSE`. -/

namespace Sys2Proof.Machine

/-- `in_i64(r)` (00_scope.md R9): the range of a `WORD`. -/
abbrev InI64 (r : Int) : Prop := -2 ^ 63 ≤ r ∧ r ≤ 2 ^ 63 - 1

/-- The result of a comparison: "1 (holds) and 0 (does not hold)" (41_alu.md R106). -/
def truthWord (b : Bool) : Word := if b then 1 else 0

/-- The numeric encoding of `eng` (10_state.md R24). -/
def Eng.code : Eng → BitVec 2
  | .running => 0
  | .suspended => 1
  | .halted => 2
  | .faulted => 3

/-- The numeric codes of `FCAUSE` (60_exceptions.md R190). -/
def FCause.code : FCause → Nat
  | .none => 0
  | .unknownOpcode => 1
  | .invalidMode => 2
  | .negativeAddress => 3
  | .addressLimit => 4
  | .overflow => 5

end Sys2Proof.Machine
end

