-- ==== Sys2Proof/Machine/Ops.lean ====
section
/-! DEFINITION. The named operations over memory, registers and queues, and entering a fault. -/

namespace Sys2Proof.Machine

/-! ### Memory as data -/

/-- The word at an address; an unlisted address reads 0 (20_memory.md R41). -/
def Memory.read : Memory → Nat → Word
  | [], _ => 0
  | (b, x) :: m, a => if b = a then x else Memory.read m a

/-- The memory with every entry for `a` taken out. -/
def Memory.remove : Memory → Nat → Memory
  | [], _ => []
  | (b, x) :: m, a => if b = a then Memory.remove m a else (b, x) :: Memory.remove m a

/-- The memory with an entry put in at its place in address order. -/
def Memory.insert : Memory → Nat → Word → Memory
  | [], a, v => [(a, v)]
  | (b, x) :: m, a, v => if a < b then (a, v) :: (b, x) :: m else (b, x) :: Memory.insert m a v

/-- The memory with `v` at `a`. Writing 0 only takes the entry out, so the form stays canonical. -/
def Memory.write (m : Memory) (a : Nat) (v : Word) : Memory :=
  if v = 0 then m.remove a else (m.remove a).insert a v

/-- The memory that holds the words of a list from address `a` on, and 0 elsewhere (70_reset_and_hazards.md R210, R211). -/
def Memory.ofWords (a : Nat) : List Word → Memory
  | [] => []
  | w :: ws => if w = 0 then Memory.ofWords (a + 1) ws else (a, w) :: Memory.ofWords (a + 1) ws

/-- The canonical form: addresses strictly rising, no zero word. -/
abbrev Memory.wf (m : Memory) : Prop := m.Pairwise (fun c d => c.1 < d.1) ∧ ∀ c ∈ m, c.2 ≠ 0

/-! ### One field at a time -/

/-- The growth of the backing array for an access at `a` (20_memory.md R42): `len <- a + 1` when `a >= len`. The new
words are 0, which is what an unlisted address reads as, so `mem` needs no change (log entry 8). -/
def State.grow (s : State) (a : Nat) : State := { s with len := max s.len (a + 1) }

/-- `M[a] <- v`. -/
def State.store (s : State) (a : Nat) (v : Word) : State := { s with mem := s.mem.write a v }

/-- `pc <- pc + width` (40_engine.md R85), the sum taken exactly (41_alu.md R107). -/
def State.advance (s : State) (width : Nat) : State := { s with pc := Word.ofInt (s.pc.toInt + width) }

/-- `pc <- t` for a taken jump (42_control.md R120). -/
def State.goto (s : State) (t : Word) : State := { s with pc := t }

/-- `rb <- r` (44_relbase_halt.md R150). -/
def State.setBase (s : State) (r : Word) : State := { s with rb := r }

/-- `eng <- e` (40_engine.md R80). -/
def State.setEng (s : State) (e : Eng) : State := { s with eng := e }

/-- `push_back(outq, v)` (43_io.md R131). -/
def State.emit (s : State) (v : Word) : State := { s with outq := s.outq ++ [v] }

/-- `inq` with what is left after a pop (43_io.md R130). -/
def State.setInput (s : State) (q : List Word) : State := { s with inq := q }

/-! ### Faults -/

/-- TAKING AN EXCEPTION: fault entry, `raise c(info)` (60_exceptions.md R196). FCAUSE, FINFO and `eng` are written and
nothing else. There is no handler, vector or saved register, and no return from a fault (R200): FAULTED is left by
LOAD alone. -/
def State.raise (s : State) (c : FCause) (info : Int) : State :=
  { s with fcause := c, finfo := info, eng := .faulted }

/-- One part of an instruction after another: a raise ends it (00_scope.md R9). -/
def Access.bind {α β : Type} : Access α → (α → State → Access β) → Access β
  | .ok v s, f => f v s
  | .raised s, _ => .raised s

/-- The outcome of a whole instruction. A raised fault is a next state, the FAULTED one (log entry 4). -/
def Access.outcome : Access Unit → Host.Outcome State Fault Refusal
  | .ok _ s => .next s
  | .raised s => .next s

/-! ### The access primitives -/

/-- An address that exists: `0 <= a < MEM_WORDS` (20_memory.md R40). -/
abbrev State.Legal (s : State) (a : Int) : Prop := 0 ≤ a ∧ a < (s.memWords : Int)

/-- `CheckAddr(a)` (20_memory.md R43): below 0 first, then at or above MEM_WORDS. -/
def checkAddr (a : Int) (s : State) : Access Nat :=
  if a < 0 then .raised (s.raise .negativeAddress a)
  else if (s.memWords : Int) ≤ a then .raised (s.raise .addressLimit a)
  else .ok a.toNat s

/-- `MemRead(a, 1)` (20_memory.md R44): check, grow, read. -/
def memRead (a : Int) (s : State) : Access Word :=
  (checkAddr a s).bind fun n s => .ok (s.mem.read n) (s.grow n)

/-- `MemWrite(a, 1, v)` (20_memory.md R45): check, grow, store. -/
def memWrite (a : Int) (v : Word) (s : State) : Access Unit :=
  (checkAddr a s).bind fun n s => .ok () ((s.grow n).store n v)

/-- The explicit range check that narrows an exact result to a word, `OVERFLOW(r)` outside it (41_alu.md R104, R105). -/
def narrow (r : Int) (s : State) : Access Word :=
  if InI64 r then .ok (Word.ofInt r) s else .raised (s.raise .overflow r)

end Sys2Proof.Machine
end

