-- ==== Sys2Proof/Machine/Operands.lean ====
section
/-! DEFINITION. The three addressing modes, as a source and as a destination (20_memory.md R46 to R49). -/

namespace Sys2Proof.Machine

/-- The parameter location `pc + k`, an exact sum (20_memory.md R46, 41_alu.md R107). -/
def paramLoc (k : Nat) (s : State) : Int := s.pc.toInt + k

/-- The address a parameter designates, from its mode, its location, its word and `rb` (the right column of R46's
table): the word itself, the parameter's own location (R49), or the exact sum `rb + w`. -/
def designated (m : Mode) (loc : Int) (w rb : Word) : Int :=
  match m with
  | .position => w.toInt
  | .immediate => loc
  | .relative => rb.toInt + w.toInt

/-- `ReadOperand(k)` (20_memory.md R47): read the parameter word; Immediate is that word, the other modes dereference
once. -/
def readOperand (k : Nat) (m : Mode) (s : State) : Access Word :=
  (memRead (paramLoc k s) s).bind fun w s =>
    match m with
    | .position => memRead w.toInt s
    | .immediate => .ok w s
    | .relative => memRead (s.rb.toInt + w.toInt) s

/-- `WriteOperand(k, v)` (20_memory.md R48): read the parameter word, then write to the address it designates. -/
def writeOperand (k : Nat) (m : Mode) (v : Word) (s : State) : Access Unit :=
  (memRead (paramLoc k s) s).bind fun w s => memWrite (designated m (paramLoc k s) w s.rb) v s

/-! ### What statements compute with -/

/-- The parameter word of parameter `k`. -/
def paramWord (k : Nat) (s : State) : Word := s.mem.read (paramLoc k s).toNat

/-- The address parameter `k` designates in a state: the one `writeOperand` stores to, and the one `readOperand`
reads from (an Immediate source is the word at its own location). -/
def operandAddr (k : Nat) (m : Mode) (s : State) : Int := designated m (paramLoc k s) (paramWord k s) s.rb

/-- The value of parameter `k` as a source. -/
def operandWord (k : Nat) (m : Mode) (s : State) : Word := s.mem.read (operandAddr k m s).toNat

/-- Parameter `k` can be read and what it designates exists: neither access of R47 or R48 faults. -/
abbrev Accessible (k : Nat) (m : Mode) (s : State) : Prop :=
  s.Legal (paramLoc k s) ∧ s.Legal (operandAddr k m s)

end Sys2Proof.Machine
end

