-- ==== Sys2Proof/Machine/Alu.lean ====
section
/-! DEFINITION. ADD, MUL, LT, EQ (41_alu.md R100 to R103). -/

namespace Sys2Proof.Machine

/-- The shape Add and Multiply share (41_alu.md R100, R101): read both sources, compute exactly, check the range, write
the destination, advance by 4. -/
def arith (f : Int → Int → Int) (m1 m2 m3 : Mode) (s : State) : Access Unit :=
  (readOperand 1 m1 s).bind fun a s =>
  (readOperand 2 m2 s).bind fun b s =>
  (narrow (f a.toInt b.toInt) s).bind fun r s =>
  (writeOperand 3 m3 r s).bind fun _ s =>
  .ok () (s.advance 4)

/-- The shape LessThan and EqualTo share (41_alu.md R102, R103): the result is 1 or 0 and needs no range check. -/
def compare (p : Int → Int → Bool) (m1 m2 m3 : Mode) (s : State) : Access Unit :=
  (readOperand 1 m1 s).bind fun a s =>
  (readOperand 2 m2 s).bind fun b s =>
  (writeOperand 3 m3 (truthWord (p a.toInt b.toInt)) s).bind fun _ s =>
  .ok () (s.advance 4)

/-- ADD (41_alu.md R100). -/
def execAdd (m1 m2 m3 : Mode) (s : State) : Host.Outcome State Fault Refusal :=
  (arith (fun a b => a + b) m1 m2 m3 s).outcome

/-- MUL (41_alu.md R101). -/
def execMul (m1 m2 m3 : Mode) (s : State) : Host.Outcome State Fault Refusal :=
  (arith (fun a b => a * b) m1 m2 m3 s).outcome

/-- LT, a signed comparison (41_alu.md R102, R106). -/
def execLt (m1 m2 m3 : Mode) (s : State) : Host.Outcome State Fault Refusal :=
  (compare (fun a b => decide (a < b)) m1 m2 m3 s).outcome

/-- EQ (41_alu.md R103). -/
def execEq (m1 m2 m3 : Mode) (s : State) : Host.Outcome State Fault Refusal :=
  (compare (fun a b => decide (a = b)) m1 m2 m3 s).outcome

end Sys2Proof.Machine
end

