-- ==== Sys2Proof/Machine/Control.lean ====
section
/-! DEFINITION. JT, JF (42_control.md R120 to R122). -/

namespace Sys2Proof.Machine

/-- The shape the two jumps share (42_control.md R120, R121): both operands are read whether or not the jump is taken
(40_engine.md R87); a taken jump to a negative target raises at the jump (R122); else `pc` is the target, or goes on
by 3. -/
def jump (taken : Int → Bool) (m1 m2 : Mode) (s : State) : Access Unit :=
  (readOperand 1 m1 s).bind fun c s =>
  (readOperand 2 m2 s).bind fun t s =>
  if taken c.toInt then
    if t.toInt < 0 then .raised (s.raise .negativeAddress t.toInt) else .ok () (s.goto t)
  else .ok () (s.advance 3)

/-- JT (42_control.md R120): taken when the condition is not 0. -/
def execJt (m1 m2 : Mode) (s : State) : Host.Outcome State Fault Refusal :=
  (jump (fun c => decide (c ≠ 0)) m1 m2 s).outcome

/-- JF (42_control.md R121): taken when the condition is 0. -/
def execJf (m1 m2 : Mode) (s : State) : Host.Outcome State Fault Refusal :=
  (jump (fun c => decide (c = 0)) m1 m2 s).outcome

end Sys2Proof.Machine
end

