-- ==== Sys2Proof/Machine/Io.lean ====
section
/-! DEFINITION. IN, OUT (43_io.md R132, R133). -/

namespace Sys2Proof.Machine

/-- IN (43_io.md R132): an empty queue suspends before the destination is read; else the front is popped, then written,
so a faulting destination has already consumed it. -/
def execInp (m1 : Mode) (s : State) : Host.Outcome State Fault Refusal :=
  match s.inq with
  | [] => .next (s.setEng .suspended)
  | v :: rest =>
    ((writeOperand 1 m1 v (s.setInput rest)).bind fun _ s => .ok () (s.advance 2)).outcome

/-- OUT (43_io.md R133). -/
def execOut (m1 : Mode) (s : State) : Host.Outcome State Fault Refusal :=
  ((readOperand 1 m1 s).bind fun a s => .ok () ((s.emit a).advance 2)).outcome

end Sys2Proof.Machine
end

