-- ==== Sys2Proof/Machine/RelBaseHalt.lean ====
section
/-! DEFINITION. ARB, HLT (44_relbase_halt.md R150, R151). -/

namespace Sys2Proof.Machine

/-- ARB (44_relbase_halt.md R150): the operand is read with the old `rb`, the exact sum is range-checked. -/
def execArb (m1 : Mode) (s : State) : Host.Outcome State Fault Refusal :=
  ((readOperand 1 m1 s).bind fun a s =>
   (narrow (s.rb.toInt + a.toInt) s).bind fun r s =>
   .ok () ((s.setBase r).advance 2)).outcome

/-- HLT (44_relbase_halt.md R151): `pc` stays at the Halt word. -/
def execHlt (s : State) : Host.Outcome State Fault Refusal :=
  .next (s.setEng .halted)

end Sys2Proof.Machine
end

