-- ==== Sys2Proof/Machine/Dispatch.lean ====
section
/-! DEFINITION. The dispatch of a decoded instruction to its meaning (40_engine.md R84): one arm per constructor. The
modes of unused slots are ignored (30_encoding.md R68). -/

namespace Sys2Proof.Machine

def exec (i : Instr) (s : State) : Host.Outcome State Fault Refusal :=
  match i with
  | .add m1 m2 m3 => Sys2Proof.Machine.execAdd m1 m2 m3 s
  | .mul m1 m2 m3 => Sys2Proof.Machine.execMul m1 m2 m3 s
  | .inp m1 _ _ => Sys2Proof.Machine.execInp m1 s
  | .out m1 _ _ => Sys2Proof.Machine.execOut m1 s
  | .jt m1 m2 _ => Sys2Proof.Machine.execJt m1 m2 s
  | .jf m1 m2 _ => Sys2Proof.Machine.execJf m1 m2 s
  | .lt m1 m2 m3 => Sys2Proof.Machine.execLt m1 m2 m3 s
  | .eq m1 m2 m3 => Sys2Proof.Machine.execEq m1 m2 m3 s
  | .arb m1 _ _ => Sys2Proof.Machine.execArb m1 s
  | .hlt _ _ _ => Sys2Proof.Machine.execHlt s

end Sys2Proof.Machine
end

