-- ==== Sys2Proof/Machine/Engine.lean ====
section
/-! DEFINITION. What a step does around an instruction: waking, fetching, decoding (40_engine.md R80, R82, R83), and
placing an instruction where the next fetch finds it. -/

namespace Sys2Proof.Machine

/-- STEP and RUN in each engine state (45_host_port.md R167, R168): a halted or faulted core does nothing (none); a
running or suspended one goes on as RUNNING. -/
def wake (s : State) : Option State :=
  match s.eng with
  | .running => some s
  | .suspended => some (s.setEng .running)
  | .halted => none
  | .faulted => none

/-- Fetch and decode (40_engine.md R82, R83): the word at `pc`, read through `MemRead`; a word that does not decode
enters its fault with the word as the information (60_exceptions.md R190). -/
def fetchDecode (s : State) : Access Instr :=
  (memRead s.pc.toInt s).bind fun w s =>
    match decode w with
    | .instr i => .ok i s
    | .unknownOpcode => .raised (s.raise .unknownOpcode w.toInt)
    | .invalidMode => .raised (s.raise .invalidMode w.toInt)

/-- Words stored from an address on, those beyond the last address left out. -/
def State.storeWords (s : State) (a : Nat) : List Word → State
  | [] => s
  | w :: ws => State.storeWords (if a < s.memWords then (s.grow a).store a w else s) (a + 1) ws

/-- Where the next fetch of a running core reads: `pc`, or 0 where `pc` is no address (log entry 12). -/
def fetchPlace (s : State) : Nat := if s.Legal s.pc.toInt then s.pc.toInt.toNat else 0

/-- The state in which the very next step fetches the first of these words. A halted or faulted core is made RUNNING,
with no fault recorded, since it would fetch nothing (log entry 12). -/
def State.placeWords (s : State) (ws : List Word) : State :=
  let t := { s.storeWords (fetchPlace s) ws with pc := BitVec.ofNat 64 (fetchPlace s) }
  if s.eng = .halted ∨ s.eng = .faulted then { t with eng := .running, fcause := .none, finfo := 0 } else t

end Sys2Proof.Machine
end

