-- ==== Sys2Proof/Machine/Step.lean ====
section
/-! DEFINITION. One step: the host's STEP (45_host_port.md R168), which is `Step` of 40_engine.md R82 on a core that
runs, and no change on a halted or faulted one. -/

namespace Sys2Proof.Machine

/-- One step (45_host_port.md R168, 40_engine.md R82): nothing on a halted or faulted core; else fetch, decode and run
one instruction. Any fault inside is a next state (60_exceptions.md R196). -/
def step (s : State) : Host.Outcome State Fault Refusal :=
  match wake s with
  | none => .next s
  | some s =>
    match fetchDecode s with
    | .ok i s => exec i s
    | .raised s => .next s

/-- The state with the instruction of an opcode-table word stored where the next step fetches. It stands for a LOAD or
POKE by the host: a program is loaded from outside the machine (log entry 12). -/
def State.withFetchWord (s : State) (nbits w : Nat) : State := s.placeWords (tableWords nbits w)

end Sys2Proof.Machine
end

