-- ==== Sys2Proof/Machine/HostPort.lean ====
section
/-! DEFINITION. The host port: the twelve commands of 45_host_port.md, each a function of the state; several instances
side by side (R175); and the port as the host sees it, where a snapshot is an opaque token (R173). -/

namespace Sys2Proof.Machine

/-- A snapshot `(M, len, pc, rb)` (45_host_port.md R173), as it stands inside the port. The host has a `Token` for it. -/
structure Snapshot where
  /-- `M`. -/
  mem : Memory
  /-- `len`. -/
  len : Nat
  /-- `pc`. -/
  pc : Word
  /-- `rb`. -/
  rb : Word
deriving DecidableEq, Repr

/-- What the host holds of a snapshot: the number of the CAPTURE that took it. It has no field of the snapshot, so the
host can do nothing with it but give it to INSTALL (45_host_port.md R173; log entry 15). -/
structure Token where
  /-- How many snapshots were taken before this one. -/
  number : Nat
deriving DecidableEq, Repr

/-- The commands of the port (45_host_port.md R160), with snapshots as `σ`: the snapshot itself on the instance's side,
a token on the host's. -/
inductive CommandOf (σ : Type) where
  /-- LOAD (R162). -/
  | load (words : List Word)
  /-- POKE (R164). -/
  | poke (a : Int) (v : Word)
  /-- PEEK (R165). -/
  | peek (a : Int)
  /-- ENQ (R166). -/
  | enq (v : Word)
  /-- RUN (R167). -/
  | run
  /-- STEP (R168). -/
  | step
  /-- OUT_READ (R169). -/
  | outRead
  /-- OUT_CLEAR (R170). -/
  | outClear
  /-- RESET (R171). -/
  | reset
  /-- STATUS (R172). -/
  | status
  /-- CAPTURE (R173). -/
  | capture
  /-- INSTALL (R174). -/
  | install (snap : σ)
deriving DecidableEq, Repr

/-- The result of a command, with snapshots as `σ`. -/
inductive ReplyOf (σ : Type) where
  /-- `OK`. -/
  | ok
  /-- `REFUSED`: no state changed (R161). -/
  | refused
  /-- The word PEEK read. -/
  | word (v : Word)
  /-- The sequence OUT_READ read, oldest first. -/
  | words (vs : List Word)
  /-- The final `eng` of RUN or STEP, with FCAUSE and FINFO when it is FAULTED (R167, R176). -/
  | ran (e : Eng) (fault : Option (FCause × Int))
  /-- `(eng, FCAUSE, FINFO)` (R172). -/
  | status (e : Eng) (c : FCause) (info : Int)
  /-- What CAPTURE took. -/
  | snapshot (snap : σ)
deriving DecidableEq, Repr

/-- A command as an instance is given it. -/
abbrev Command := CommandOf Snapshot

/-- What an instance answers. -/
abbrev Reply := ReplyOf Snapshot

/-- A command as the host gives it. -/
abbrev HostCommand := CommandOf Token

/-- What the host is answered: of a snapshot, its token alone. -/
abbrev HostReply := ReplyOf Token

/-! ### The commands -/

/-- The state after LOAD(words), every piece of it (70_reset_and_hazards.md R210), on a machine with this last address. -/
def State.loaded (words : List Word) (lastAddr : Fin Config.memWordsMax) : State where
  mem := Memory.ofWords 0 words
  len := words.length
  orig := words
  pc := 0
  rb := 0
  eng := .running
  fcause := .none
  finfo := 0
  inq := []
  outq := []
  lastAddr := lastAddr

/-- LOAD (45_host_port.md R162): a new instance whatever the old state; refused when empty or too long. -/
def hostLoad (words : List Word) (s : State) : Reply × State :=
  if words = [] ∨ s.memWords < words.length then (.refused, s) else (.ok, State.loaded words s.lastAddr)

/-- POKE (45_host_port.md R164). -/
def hostPoke (a : Int) (v : Word) (s : State) : Reply × State :=
  if s.eng = .faulted ∨ ¬ s.Legal a then (.refused, s) else (.ok, (s.grow a.toNat).store a.toNat v)

/-- PEEK (45_host_port.md R165): every state, FAULTED included. -/
def hostPeek (a : Int) (s : State) : Reply × State :=
  if s.Legal a then (.word (s.mem.read a.toNat), s.grow a.toNat) else (.refused, s)

/-- ENQ (45_host_port.md R166): `eng` is not changed. -/
def hostEnq (v : Word) (s : State) : Reply × State :=
  if s.eng = .faulted then (.refused, s) else (.ok, s.setInput (s.inq ++ [v]))

/-- What RUN and STEP report of the state they leave (45_host_port.md R167, R168, R176). -/
def ranReply (s : State) : Reply :=
  .ran s.eng (if s.eng = .faulted then some (s.fcause, s.finfo) else none)

/-- STEP (45_host_port.md R168). `step` always answers a next state (Laws/Step.lean), so the last two arms are never
taken. -/
def hostStep (s : State) : Reply × State :=
  match step s with
  | .next t => (ranReply t, t)
  | .fault _ => (.refused, s)
  | .refused _ => (.refused, s)

/-- The run loop (40_engine.md R88): step while RUNNING. None: still RUNNING when the fuel was used up (log entry 7). -/
def runLoop : Nat → State → Option State
  | 0, s => if s.eng = .running then none else some s
  | n + 1, s =>
    if s.eng = .running then
      match step s with
      | .next t => runLoop n t
      | .fault _ => none
      | .refused _ => none
    else some s

/-- RUN (45_host_port.md R167) with so many steps at most; none when it has not returned by then, since the core itself
has no step budget (40_engine.md R89; log entry 7). -/
def hostRun (fuel : Nat) (s : State) : Option (Reply × State) :=
  match wake s with
  | none => some (ranReply s, s)
  | some s => (runLoop fuel s).map fun t => (ranReply t, t)

/-- OUT_READ (45_host_port.md R169). -/
def hostOutRead (s : State) : Reply × State := (.words s.outq, s)

/-- OUT_CLEAR (45_host_port.md R170). -/
def hostOutClear (s : State) : Reply × State :=
  if s.eng = .faulted then (.refused, s) else (.ok, { s with outq := [] })

/-- RESET (45_host_port.md R171, 70_reset_and_hazards.md R211). -/
def hostReset (s : State) : Reply × State :=
  if s.eng = .faulted then (.refused, s)
  else (.ok, { s with mem := Memory.ofWords 0 s.orig, len := s.olen, pc := 0, rb := 0, outq := [], eng := .running })

/-- STATUS (45_host_port.md R172). -/
def hostStatus (s : State) : Reply × State := (.status s.eng s.fcause s.finfo, s)

/-- CAPTURE (45_host_port.md R173). -/
def hostCapture (s : State) : Reply × State := (.snapshot ⟨s.mem, s.len, s.pc, s.rb⟩, s)

/-- INSTALL (45_host_port.md R174): a full overwrite of the four; SUSPENDED becomes RUNNING, the others are kept. -/
def hostInstall (snap : Snapshot) (s : State) : Reply × State :=
  if s.eng = .faulted then (.refused, s)
  else (.ok, { s with
    mem := snap.mem, len := snap.len, pc := snap.pc, rb := snap.rb,
    eng := if s.eng = .suspended then .running else s.eng })

/-- One command served by one instance to its end (45_host_port.md R160), on the instance's side of the port: what the host
sees is `Port.serve`. None: a RUN that has not returned within the fuel. -/
def serve (fuel : Nat) (c : Command) (s : State) : Option (Reply × State) :=
  match c with
  | .load words => some (hostLoad words s)
  | .poke a v => some (hostPoke a v s)
  | .peek a => some (hostPeek a s)
  | .enq v => some (hostEnq v s)
  | .run => hostRun fuel s
  | .step => some (hostStep s)
  | .outRead => some (hostOutRead s)
  | .outClear => some (hostOutClear s)
  | .reset => some (hostReset s)
  | .status => some (hostStatus s)
  | .capture => some (hostCapture s)
  | .install snap => some (hostInstall snap s)

/-- Commands served one at a time, in the order the host issues them (45_host_port.md R160); the replies in order. -/
def serveAll (fuel : Nat) : List Command → State → Option (List Reply × State)
  | [], s => some ([], s)
  | c :: cs, s =>
    match serve fuel c s with
    | none => none
    | some (r, t) =>
      match serveAll fuel cs t with
      | none => none
      | some (rs, u) => some (r :: rs, u)

/-! ### Instances (45_host_port.md R175) -/

/-- Any number of instances, each owning its state (10_state.md R33). -/
abbrev Cores := List State

/-- LOAD as construction: a further instance beside the others, or none when the words are refused ("no partial
Program is produced", 45_host_port.md R161, R162). -/
def Cores.create (words : List Word) (lastAddr : Fin Config.memWordsMax) (cs : Cores) : Reply × Cores :=
  if words = [] ∨ lastAddr.val + 1 < words.length then (.refused, cs)
  else (.ok, cs ++ [State.loaded words lastAddr])

/-- A command to instance `k`. None when there is no such instance or the RUN has not returned. -/
def Cores.serve (fuel k : Nat) (c : Command) (cs : Cores) : Option (Reply × Cores) :=
  match cs[k]? with
  | none => none
  | some s => (Machine.serve fuel c s).map fun rt => (rt.1, cs.set k rt.2)

/-! ### The port as the host sees it (45_host_port.md R160, R173, R175) -/

/-- The instances, and the snapshots CAPTURE has taken from any of them, oldest first: the token with number `n` stands
for the `n`-th. The second is no state of an instance (10_state.md R34) but what the host's tokens mean (log entry 15). -/
structure Port where
  /-- The instances. -/
  cores : Cores
  /-- The snapshots taken. -/
  held : List Snapshot
deriving DecidableEq, Repr

/-- The host's command as the instance is given it: INSTALL's token replaced by its snapshot. None for a token that no
CAPTURE answered. -/
def HostCommand.resolve (held : List Snapshot) : HostCommand → Option Command
  | .load words => some (.load words)
  | .poke a v => some (.poke a v)
  | .peek a => some (.peek a)
  | .enq v => some (.enq v)
  | .run => some .run
  | .step => some .step
  | .outRead => some .outRead
  | .outClear => some .outClear
  | .reset => some .reset
  | .status => some .status
  | .capture => some .capture
  | .install token => held[token.number]?.map fun snap => .install snap

/-- What the host sees of an instance's reply: of a snapshot, the token it gets. -/
def Reply.shown (held : List Snapshot) : Reply → HostReply
  | .ok => .ok
  | .refused => .refused
  | .word v => .word v
  | .words vs => .words vs
  | .ran e fault => .ran e fault
  | .status e c info => .status e c info
  | .snapshot _ => .snapshot ⟨held.length⟩

/-- The snapshots held after a reply: CAPTURE's is added (45_host_port.md R173). -/
def Reply.hold (held : List Snapshot) : Reply → List Snapshot
  | .ok => held
  | .refused => held
  | .word _ => held
  | .words _ => held
  | .ran _ _ => held
  | .status _ _ _ => held
  | .snapshot snap => held ++ [snap]

/-- A command of the host to instance `k`. INSTALL with a token no CAPTURE answered is refused (45_host_port.md R161; log
entry 15). None when there is no such instance or the RUN has not returned. -/
def Port.serve (fuel k : Nat) (c : HostCommand) (p : Port) : Option (HostReply × Port) :=
  match HostCommand.resolve p.held c with
  | none => some (.refused, p)
  | some d =>
    (Cores.serve fuel k d p.cores).map fun rc =>
      (Reply.shown p.held rc.1, { cores := rc.2, held := Reply.hold p.held rc.1 })

/-- The host's commands to instances, in the order it issues them (45_host_port.md R160); the replies in order. -/
def Port.serveAll (fuel : Nat) : List (Nat × HostCommand) → Port → Option (List HostReply × Port)
  | [], p => some ([], p)
  | c :: cs, p =>
    match Port.serve fuel c.1 c.2 p with
    | none => none
    | some (r, q) =>
      match Port.serveAll fuel cs q with
      | none => none
      | some (rs, u) => some (r :: rs, u)

/-- LOAD as construction of a further instance behind the port (45_host_port.md R162, R175). -/
def Port.create (words : List Word) (lastAddr : Fin Config.memWordsMax) (p : Port) : HostReply × Port :=
  let rc := p.cores.create words lastAddr
  (Reply.shown p.held rc.1, { p with cores := rc.2 })

end Sys2Proof.Machine
end

