-- ==== Sys2Proof/Safety.lean ====
section
/-! DEFINITION. What claims are stated with: the invariant of every reachable state, a failed run, the state less its
unobservable part, what a fault leaves, and the priority of faults. -/

namespace Sys2Proof.Machine

/-- The invariant of every state a core can be in (10_state.md R22, R25, R26, R29; 20_memory.md R41). -/
structure State.Inv (s : State) : Prop where
  /-- `0 <= pc` at all times (R22). -/
  pcNonneg : 0 ≤ s.pc.toInt
  /-- Memory keeps its canonical form. -/
  memWf : s.mem.wf
  /-- Every word at an address `a >= len` holds 0 (R41): nothing is listed there. -/
  memBelowLen : ∀ c ∈ s.mem, c.1 < s.len
  /-- `len <= MEM_WORDS` (R29). -/
  lenBound : s.len ≤ s.memWords
  /-- The original fits in memory (45_host_port.md R162). -/
  origFits : s.olen ≤ s.memWords
  /-- FCAUSE is NONE exactly when `eng` is not FAULTED (R25). -/
  causeIff : s.fcause = .none ↔ s.eng ≠ .faulted
  /-- FINFO is 0 when FCAUSE is NONE (R26). -/
  infoZero : s.fcause = .none → s.finfo = 0

/-- "memory.len() >= original_memory.len() always" (10_state.md R29): kept by every step and every command but
INSTALL (log entry 9). -/
abbrev State.CoversOriginal (s : State) : Prop := s.olen ≤ s.len

/-- A snapshot as CAPTURE takes it from an instance of the same machine: what INSTALL may be given (45_host_port.md
R173). -/
def Snapshot.FromSameMachine (snap : Snapshot) (lastAddr : Fin Config.memWordsMax) : Prop :=
  ∃ s : State, s.Inv ∧ s.lastAddr = lastAddr ∧ snap = ⟨s.mem, s.len, s.pc, s.rb⟩

/-- A failed run: FAULTED is a stop that is not a halt, "never … a final state" (93_implementation_defined.md I12). -/
abbrev State.Failed (s : State) : Prop := s.eng = .faulted

/-- A finished run: HALTED. -/
abbrev State.Finished (s : State) : Prop := s.eng = .halted

/-- The state less `len`, which no observation shows (10_state.md R32). -/
def State.forgetLen (s : State) : State := { s with len := 0 }

/-- A snapshot less `len`. -/
def Snapshot.forgetLen (snap : Snapshot) : Snapshot := { snap with len := 0 }

/-- A command less the `len` inside a snapshot it carries. -/
def Command.forgetLen : Command → Command
  | .load words => .load words
  | .poke a v => .poke a v
  | .peek a => .peek a
  | .enq v => .enq v
  | .run => .run
  | .step => .step
  | .outRead => .outRead
  | .outClear => .outClear
  | .reset => .reset
  | .status => .status
  | .capture => .capture
  | .install snap => .install snap.forgetLen

/-- A reply less the `len` inside a snapshot it carries. -/
def Reply.forgetLen : Reply → Reply
  | .ok => .ok
  | .refused => .refused
  | .word v => .word v
  | .words vs => .words vs
  | .ran e f => .ran e f
  | .status e c info => .status e c info
  | .snapshot snap => .snapshot snap.forgetLen

/-- The port less every `len` in it. -/
def Port.forgetLen (p : Port) : Port := ⟨p.cores.map State.forgetLen, p.held.map Snapshot.forgetLen⟩

/-- The invariant of the port of a machine with this last address: every instance meets its own, and every snapshot held
was taken from an instance of this machine (10_state.md R33, 45_host_port.md R173). -/
structure Port.Inv (lastAddr : Fin Config.memWordsMax) (p : Port) : Prop where
  /-- Every instance meets the invariant of a core. -/
  cores : ∀ s ∈ p.cores, s.Inv ∧ s.lastAddr = lastAddr
  /-- Every snapshot is one CAPTURE takes. -/
  held : ∀ snap ∈ p.held, snap.FromSameMachine lastAddr

/-- `t` is `s` after fault entry with this cause and information (60_exceptions.md R196): every field but FCAUSE, FINFO
and `eng` as before, save that reads may have grown `len`, within the machine's memory. -/
def FaultEntered (c : FCause) (info : Int) (s t : State) : Prop :=
  t = { s with fcause := c, finfo := info, eng := .faulted, len := t.len } ∧
    s.len ≤ t.len ∧ t.len ≤ max s.len s.memWords

/-- The length of `M` after accesses at these addresses, in order (20_memory.md R42). -/
def lenAfter (as : List Int) (len : Nat) : Nat := as.foldl (fun l a => max l (a.toNat + 1)) len

/-- The two addresses an operand or a destination touches: its location, then what it designates (20_memory.md R47,
R48). For an Immediate parameter the two are the same. -/
def touched (k : Nat) (m : Mode) (s : State) : List Int := [paramLoc k s, operandAddr k m s]

/-! ### The priority of faults (60_exceptions.md R197) -/

/-- What the address check of 20_memory.md R43 raises at `a`, if anything. -/
def addrFault (s : State) (a : Int) : Option (FCause × Int) :=
  if a < 0 then some (.negativeAddress, a)
  else if (s.memWords : Int) ≤ a then some (.addressLimit, a)
  else none

/-- What a parameter raises: at its location, then at what it designates. -/
def paramFault (k : Nat) (m : Mode) (s : State) : Option (FCause × Int) :=
  (addrFault s (paramLoc k s)).or (addrFault s (operandAddr k m s))

/-- What the range check raises (41_alu.md R105). -/
def rangeFault (r : Int) : Option (FCause × Int) := if InI64 r then none else some (.overflow, r)

/-- What the target check of a jump raises (42_control.md R122). -/
def targetFault (taken : Prop) [Decidable taken] (t : Int) : Option (FCause × Int) :=
  if taken ∧ t < 0 then some (.negativeAddress, t) else none

/-- The first fault of an instruction, in the order of 60_exceptions.md R197 (3 to 7): parameter 1, parameter 2, the
range check, the destination, the jump target. An Input with `inq` empty has none. -/
def firstFault (i : Instr) (s : State) : Option (FCause × Int) :=
  let v := fun k m => (operandWord k m s).toInt
  match i with
  | .add m1 m2 m3 =>
    ((paramFault 1 m1 s).or (paramFault 2 m2 s)).or ((rangeFault (v 1 m1 + v 2 m2)).or (paramFault 3 m3 s))
  | .mul m1 m2 m3 =>
    ((paramFault 1 m1 s).or (paramFault 2 m2 s)).or ((rangeFault (v 1 m1 * v 2 m2)).or (paramFault 3 m3 s))
  | .lt m1 m2 m3 => ((paramFault 1 m1 s).or (paramFault 2 m2 s)).or (paramFault 3 m3 s)
  | .eq m1 m2 m3 => ((paramFault 1 m1 s).or (paramFault 2 m2 s)).or (paramFault 3 m3 s)
  | .jt m1 m2 _ =>
    ((paramFault 1 m1 s).or (paramFault 2 m2 s)).or (targetFault (v 1 m1 ≠ 0) (v 2 m2))
  | .jf m1 m2 _ =>
    ((paramFault 1 m1 s).or (paramFault 2 m2 s)).or (targetFault (v 1 m1 = 0) (v 2 m2))
  | .inp m1 _ _ => if s.inq = [] then none else paramFault 1 m1 s
  | .out m1 _ _ => paramFault 1 m1 s
  | .arb m1 _ _ => (paramFault 1 m1 s).or (rangeFault (s.rb.toInt + v 1 m1))
  | .hlt _ _ _ => none

/-- The state an instruction's fault leaves `inq` in: as it was, but for the value a faulting Input has popped
(60_exceptions.md R196, 43_io.md R132). -/
def inputAfterFault (i : Instr) (s : State) : List Word :=
  match i with
  | .inp _ _ _ => s.inq.tail
  | .add _ _ _ => s.inq
  | .mul _ _ _ => s.inq
  | .out _ _ _ => s.inq
  | .jt _ _ _ => s.inq
  | .jf _ _ _ => s.inq
  | .lt _ _ _ => s.inq
  | .eq _ _ _ => s.inq
  | .arb _ _ _ => s.inq
  | .hlt _ _ _ => s.inq

/-! ### A step as a whole -/

/-- A core that RUN or STEP lets execute (45_host_port.md R167, R168). -/
abbrev State.Awake (s : State) : Prop := s.eng = .running ∨ s.eng = .suspended

/-- The word the next fetch reads (40_engine.md R83). -/
def fetchWord (s : State) : Word := s.mem.read s.pc.toInt.toNat

/-- The next fetch succeeds and its word decodes to this instruction. -/
def Fetches (s : State) (i : Instr) : Prop := s.Legal s.pc.toInt ∧ decode (fetchWord s) = .instr i

/-- The first fault of a step, in the order of 60_exceptions.md R197: the fetch, the decode, then the instruction's. -/
def stepFault (s : State) : Option (FCause × Int) :=
  (addrFault s s.pc.toInt).or
    (match decode (fetchWord s) with
     | .unknownOpcode => some (.unknownOpcode, (fetchWord s).toInt)
     | .invalidMode => some (.invalidMode, (fetchWord s).toInt)
     | .instr i => firstFault i s)

/-- The state in which the fetched instruction runs: RUNNING, and `len` grown by the fetch (40_engine.md R80, R83). -/
def State.fetched (s : State) : State :=
  { s with eng := .running, len := lenAfter [s.pc.toInt] s.len }

/-! ### What a completed instruction leaves -/

/-- `t` is `s` after an instruction that stored the value `r` at address `d`, touched the addresses `as` and went on by
`width`: every other word of memory and every other field as before. -/
structure StoredAndAdvanced (as : List Int) (d r : Int) (width : Nat) (s t : State) : Prop where
  /-- The word stored. -/
  stored : (t.mem.read d.toNat).toInt = r
  /-- Every other word reads as before. -/
  otherWords : ∀ a : Nat, a ≠ d.toNat → t.mem.read a = s.mem.read a
  /-- `pc <- pc + width`, exactly. -/
  advanced : t.pc.toInt = s.pc.toInt + width
  /-- `len` has grown over the touched addresses and no further. -/
  grown : t.len = lenAfter as s.len
  /-- No other field changed. -/
  rest : t = { s with mem := t.mem, pc := t.pc, len := t.len }

end Sys2Proof.Machine
end

