-- ==== Sys2Proof/Certificates/Slice0/Obligations.lean ====
section
/-! DEFINITION. The statements for the provers. Each docstring names the rule of spec/ it formalises. No statement rests
on the value of MEM_WORDS: each holds for every `lastAddr`. -/

open Sys2Proof Sys2Proof.Machine

/-! ### Encoding and decoding -/

/-- Words written out digit by digit from R60, R61 and R64 decode to the instructions they stand for, and words R69
lists as illegal are refused by name. -/
def Obligations.SpecWordsDecodeAsNamed : Prop :=
  decode 11101 = .instr (.add .immediate .immediate .immediate) ∧
  decode 1002 = .instr (.mul .position .immediate .position) ∧
  decode 203 = .instr (.inp .relative .position .position) ∧
  decode 104 = .instr (.out .immediate .position .position) ∧
  decode 1105 = .instr (.jt .immediate .immediate .position) ∧
  decode 2006 = .instr (.jf .position .relative .position) ∧
  decode 21107 = .instr (.lt .immediate .immediate .relative) ∧
  decode 8 = .instr (.eq .position .position .position) ∧
  decode 109 = .instr (.arb .immediate .position .position) ∧
  decode 10099 = .instr (.hlt .position .position .immediate) ∧
  decode 22299 = .instr (.hlt .relative .relative .relative) ∧
  decode 0 = .unknownOpcode ∧ decode 10 = .unknownOpcode ∧ decode 98 = .unknownOpcode ∧ decode 300 = .unknownOpcode ∧
  decode (-1) = .unknownOpcode ∧ decode (-99) = .unknownOpcode ∧
  decode 399 = .invalidMode ∧ decode 3001 = .invalidMode ∧ decode 90001 = .invalidMode ∧ decode 100099 = .invalidMode

/-- R61: the instruction word is `op + 100*m1 + 1000*m2 + 10000*m3`, it lies in `[1, 22299]`, and the words that decode
are exactly these: a word decodes to an instruction exactly when it is that instruction's word. -/
def Obligations.DecodeAndEncodeAreInverse : Prop :=
  (∀ i : Instr, (encode i).toInt =
      i.opcode + 100 * i.modes.1.digit + 1000 * i.modes.2.1.digit + 10000 * i.modes.2.2.digit ∧
    1 ≤ (encode i).toInt ∧ (encode i).toInt ≤ 22299) ∧
  ∀ (w : Word) (i : Instr), decode w = .instr i ↔ encode i = w

/-- R62: what `Decode(w)` answers for every word, by its decimal digits: the checks in the rule's order, and for a legal
word the opcode `w mod 100` and the modes of digits 2, 3 and 4. -/
def Obligations.DecodeReadsTheDecimalDigits : Prop :=
  ∀ w : Word,
    let n := w.toInt
    let op := n % 100
    let known := op ∈ ([1, 2, 3, 4, 5, 6, 7, 8, 9, 99] : List Int)
    let digit := fun k : Nat => n / 10 ^ k % 10
    (n < 0 → decode w = .unknownOpcode) ∧
    (0 ≤ n → ¬ known → decode w = .unknownOpcode) ∧
    (0 ≤ n → known → 100000 ≤ n → decode w = .invalidMode) ∧
    (0 ≤ n → known → n < 100000 → (2 < digit 2 ∨ 2 < digit 3 ∨ 2 < digit 4) → decode w = .invalidMode) ∧
    (0 ≤ n → known → n < 100000 → digit 2 ≤ 2 → digit 3 ≤ 2 → digit 4 ≤ 2 →
      ∃ i : Instr, decode w = .instr i ∧ (i.opcode : Int) = op ∧ (i.modes.1.digit : Int) = digit 2 ∧
        (i.modes.2.1.digit : Int) = digit 3 ∧ (i.modes.2.2.digit : Int) = digit 4)

/-- R68: a mode digit of 0, 1 or 2 in an unused slot is accepted and ignored: the instructions that differ in unused
slots alone do the same. -/
def Obligations.UnusedSlotModesAreIgnored : Prop :=
  ∀ (m1 m2 a b c x y z : Mode) (s : State),
    exec (.inp m1 a b) s = exec (.inp m1 x y) s ∧ exec (.out m1 a b) s = exec (.out m1 x y) s ∧
    exec (.arb m1 a b) s = exec (.arb m1 x y) s ∧ exec (.jt m1 m2 a) s = exec (.jt m1 m2 x) s ∧
    exec (.jf m1 m2 a) s = exec (.jf m1 m2 x) s ∧ exec (.hlt a b c) s = exec (.hlt x y z) s

/-! ### Memory -/

/-- R44 with the check of R43: a legal read answers the word and changes `len` alone, which becomes `a + 1` when
`a >= len`; an illegal one raises, below 0 first. -/
def Obligations.MemReadChecksGrowsAndReads : Prop :=
  ∀ (a : Int) (s : State),
    (0 ≤ a → a < s.memWords →
      memRead a s = .ok (s.mem.read a.toNat) { s with len := if (s.len : Int) ≤ a then a.toNat + 1 else s.len }) ∧
    (a < 0 → memRead a s = .raised { s with fcause := .negativeAddress, finfo := a, eng := .faulted }) ∧
    ((s.memWords : Int) ≤ a → memRead a s = .raised { s with fcause := .addressLimit, finfo := a, eng := .faulted })

/-- R45 with the check of R43: a legal write stores the word, leaves every other word, and grows `len`; an illegal one
raises and stores nothing. -/
def Obligations.MemWriteChecksGrowsAndStores : Prop :=
  ∀ (a : Int) (v : Word) (s : State),
    (0 ≤ a → a < s.memWords → ∃ t, memWrite a v s = .ok () t ∧
      (∀ b : Nat, t.mem.read b = if b = a.toNat then v else s.mem.read b) ∧
      t = { s with mem := t.mem, len := if (s.len : Int) ≤ a then a.toNat + 1 else s.len }) ∧
    (a < 0 → memWrite a v s = .raised { s with fcause := .negativeAddress, finfo := a, eng := .faulted }) ∧
    ((s.memWords : Int) ≤ a → memWrite a v s = .raised { s with fcause := .addressLimit, finfo := a, eng := .faulted })

/-- R41: every word at an address at or beyond `len` reads 0. Stated for states that meet the invariant, which a step and
every command keep (EveryStepKeepsTheInvariant, EveryCommandKeepsTheInvariant). -/
def Obligations.WordsBeyondTheLengthReadZero : Prop :=
  ∀ (s : State) (a : Nat), s.Inv → s.len ≤ a → s.mem.read a = 0

/-- The memory's form is canonical (the model's representation of R40 and R41): writing keeps it, loading makes it, and
two memories in it that read alike everywhere are equal. -/
def Obligations.MemoryFormIsCanonical : Prop :=
  (∀ (m : Memory) (a : Nat) (v : Word), m.wf → (m.write a v).wf) ∧
  (∀ ws : List Word, (Memory.ofWords 0 ws).wf) ∧
  ∀ m n : Memory, m.wf → n.wf → (∀ a, m.read a = n.read a) → m = n

/-! ### Operands -/

/-- R46 and R47: a source operand's value by its mode, with one dereference for Position and Relative and none for
Immediate; only `len` changes. A read that faults enters its fault. -/
def Obligations.SourceOperandFollowsItsMode : Prop :=
  ∀ (k : Nat) (s : State),
    let loc := s.pc.toInt + k
    let w := s.mem.read loc.toNat
    (∀ m c x, paramFault k m s = some (c, x) → ∃ t, readOperand k m s = .raised t ∧ FaultEntered c x s t) ∧
    (s.Legal loc → s.Legal w.toInt → readOperand k .position s =
      .ok (s.mem.read w.toInt.toNat) { s with len := lenAfter [loc, w.toInt] s.len }) ∧
    (s.Legal loc → readOperand k .immediate s = .ok w { s with len := lenAfter [loc] s.len }) ∧
    (s.Legal loc → s.Legal (s.rb.toInt + w.toInt) → readOperand k .relative s =
      .ok (s.mem.read (s.rb.toInt + w.toInt).toNat) { s with len := lenAfter [loc, s.rb.toInt + w.toInt] s.len })

/-- R46, R48 and R49: the address a destination writes by its mode; an Immediate destination writes its own location
`pc + k`. A check that fails enters its fault, and `M` is not written. -/
def Obligations.DestinationFollowsItsMode : Prop :=
  ∀ (k : Nat) (m : Mode) (v : Word) (s : State),
    let loc := s.pc.toInt + k
    let w := s.mem.read loc.toNat
    let d : Int := match m with
      | .position => w.toInt
      | .immediate => loc
      | .relative => s.rb.toInt + w.toInt
    (∀ c x, paramFault k m s = some (c, x) → ∃ t, writeOperand k m v s = .raised t ∧ FaultEntered c x s t) ∧
    (s.Legal loc → s.Legal d →
      ∃ t, writeOperand k m v s = .ok () t ∧
        (∀ b : Nat, t.mem.read b = if b = d.toNat then v else s.mem.read b) ∧
        t = { s with mem := t.mem, len := lenAfter [loc, d] s.len })

/-! ### The instructions: each completes, with its result and its frame -/

/-- R100: the instruction word, the exact sum stored where parameter 3 designates, and each fault. OVERFLOW is the spec's
decision D2. -/
def Obligations.AddFollowsItsRule : Prop :=
  ∀ (m1 m2 m3 : Mode) (s : State),
    let r := (operandWord 1 m1 s).toInt + (operandWord 2 m2 s).toInt
    (encode (.add m1 m2 m3)).toInt = 1 + 100 * m1.digit + 1000 * m2.digit + 10000 * m3.digit ∧
    (Accessible 1 m1 s → Accessible 2 m2 s → InI64 r → Accessible 3 m3 s →
      ∃ t, exec (.add m1 m2 m3) s = .next t ∧
        StoredAndAdvanced (touched 1 m1 s ++ touched 2 m2 s ++ touched 3 m3 s) (operandAddr 3 m3 s) r 4 s t) ∧
    (Accessible 1 m1 s → Accessible 2 m2 s → ¬ InI64 r →
      ∃ t, exec (.add m1 m2 m3) s = .next t ∧ FaultEntered .overflow r s t) ∧
    (∀ c x, (paramFault 1 m1 s = some (c, x) ∨ Accessible 1 m1 s ∧ paramFault 2 m2 s = some (c, x) ∨
        Accessible 1 m1 s ∧ Accessible 2 m2 s ∧ InI64 r ∧ paramFault 3 m3 s = some (c, x)) →
      ∃ t, exec (.add m1 m2 m3) s = .next t ∧ FaultEntered c x s t)

/-- R101: as R100 with the exact signed product. -/
def Obligations.MulFollowsItsRule : Prop :=
  ∀ (m1 m2 m3 : Mode) (s : State),
    let r := (operandWord 1 m1 s).toInt * (operandWord 2 m2 s).toInt
    (encode (.mul m1 m2 m3)).toInt = 2 + 100 * m1.digit + 1000 * m2.digit + 10000 * m3.digit ∧
    (Accessible 1 m1 s → Accessible 2 m2 s → InI64 r → Accessible 3 m3 s →
      ∃ t, exec (.mul m1 m2 m3) s = .next t ∧
        StoredAndAdvanced (touched 1 m1 s ++ touched 2 m2 s ++ touched 3 m3 s) (operandAddr 3 m3 s) r 4 s t) ∧
    (Accessible 1 m1 s → Accessible 2 m2 s → ¬ InI64 r →
      ∃ t, exec (.mul m1 m2 m3) s = .next t ∧ FaultEntered .overflow r s t) ∧
    (∀ c x, (paramFault 1 m1 s = some (c, x) ∨ Accessible 1 m1 s ∧ paramFault 2 m2 s = some (c, x) ∨
        Accessible 1 m1 s ∧ Accessible 2 m2 s ∧ InI64 r ∧ paramFault 3 m3 s = some (c, x)) →
      ∃ t, exec (.mul m1 m2 m3) s = .next t ∧ FaultEntered c x s t)

/-- R102: signed comparison, no OVERFLOW. -/
def Obligations.LessThanFollowsItsRule : Prop :=
  ∀ (m1 m2 m3 : Mode) (s : State),
    let r : Int := if (operandWord 1 m1 s).toInt < (operandWord 2 m2 s).toInt then 1 else 0
    (encode (.lt m1 m2 m3)).toInt = 7 + 100 * m1.digit + 1000 * m2.digit + 10000 * m3.digit ∧
    (Accessible 1 m1 s → Accessible 2 m2 s → Accessible 3 m3 s →
      ∃ t, exec (.lt m1 m2 m3) s = .next t ∧
        StoredAndAdvanced (touched 1 m1 s ++ touched 2 m2 s ++ touched 3 m3 s) (operandAddr 3 m3 s) r 4 s t) ∧
    (∀ c x, (paramFault 1 m1 s = some (c, x) ∨ Accessible 1 m1 s ∧ paramFault 2 m2 s = some (c, x) ∨
        Accessible 1 m1 s ∧ Accessible 2 m2 s ∧ paramFault 3 m3 s = some (c, x)) →
      ∃ t, exec (.lt m1 m2 m3) s = .next t ∧ FaultEntered c x s t)

/-- R103: 1 when the operands are equal, else 0; no OVERFLOW. -/
def Obligations.EqualToFollowsItsRule : Prop :=
  ∀ (m1 m2 m3 : Mode) (s : State),
    let r : Int := if (operandWord 1 m1 s).toInt = (operandWord 2 m2 s).toInt then 1 else 0
    (encode (.eq m1 m2 m3)).toInt = 8 + 100 * m1.digit + 1000 * m2.digit + 10000 * m3.digit ∧
    (Accessible 1 m1 s → Accessible 2 m2 s → Accessible 3 m3 s →
      ∃ t, exec (.eq m1 m2 m3) s = .next t ∧
        StoredAndAdvanced (touched 1 m1 s ++ touched 2 m2 s ++ touched 3 m3 s) (operandAddr 3 m3 s) r 4 s t) ∧
    (∀ c x, (paramFault 1 m1 s = some (c, x) ∨ Accessible 1 m1 s ∧ paramFault 2 m2 s = some (c, x) ∨
        Accessible 1 m1 s ∧ Accessible 2 m2 s ∧ paramFault 3 m3 s = some (c, x)) →
      ∃ t, exec (.eq m1 m2 m3) s = .next t ∧ FaultEntered c x s t)

/-- R120 with R122: taken when the condition is not 0; both operands are read either way. -/
def Obligations.JumpIfTrueFollowsItsRule : Prop :=
  ∀ (m1 m2 m3 : Mode) (s : State),
    let c := (operandWord 1 m1 s).toInt
    let t := (operandWord 2 m2 s).toInt
    let len := lenAfter (touched 1 m1 s ++ touched 2 m2 s) s.len
    (encode (.jt m1 m2 m3)).toInt = 5 + 100 * m1.digit + 1000 * m2.digit + 10000 * m3.digit ∧
    (Accessible 1 m1 s → Accessible 2 m2 s → c ≠ 0 → 0 ≤ t →
      exec (.jt m1 m2 m3) s = .next { s with pc := operandWord 2 m2 s, len := len }) ∧
    (Accessible 1 m1 s → Accessible 2 m2 s → c = 0 →
      ∃ u, exec (.jt m1 m2 m3) s = .next u ∧ u.pc.toInt = s.pc.toInt + 3 ∧ u = { s with pc := u.pc, len := len }) ∧
    (Accessible 1 m1 s → Accessible 2 m2 s → c ≠ 0 → t < 0 →
      ∃ u, exec (.jt m1 m2 m3) s = .next u ∧ FaultEntered .negativeAddress t s u) ∧
    (∀ f x, (paramFault 1 m1 s = some (f, x) ∨ Accessible 1 m1 s ∧ paramFault 2 m2 s = some (f, x)) →
      ∃ u, exec (.jt m1 m2 m3) s = .next u ∧ FaultEntered f x s u)

/-- R121 with R122: taken when the condition is 0; both operands are read either way. -/
def Obligations.JumpIfFalseFollowsItsRule : Prop :=
  ∀ (m1 m2 m3 : Mode) (s : State),
    let c := (operandWord 1 m1 s).toInt
    let t := (operandWord 2 m2 s).toInt
    let len := lenAfter (touched 1 m1 s ++ touched 2 m2 s) s.len
    (encode (.jf m1 m2 m3)).toInt = 6 + 100 * m1.digit + 1000 * m2.digit + 10000 * m3.digit ∧
    (Accessible 1 m1 s → Accessible 2 m2 s → c = 0 → 0 ≤ t →
      exec (.jf m1 m2 m3) s = .next { s with pc := operandWord 2 m2 s, len := len }) ∧
    (Accessible 1 m1 s → Accessible 2 m2 s → c ≠ 0 →
      ∃ u, exec (.jf m1 m2 m3) s = .next u ∧ u.pc.toInt = s.pc.toInt + 3 ∧ u = { s with pc := u.pc, len := len }) ∧
    (Accessible 1 m1 s → Accessible 2 m2 s → c = 0 → t < 0 →
      ∃ u, exec (.jf m1 m2 m3) s = .next u ∧ FaultEntered .negativeAddress t s u) ∧
    (∀ f x, (paramFault 1 m1 s = some (f, x) ∨ Accessible 1 m1 s ∧ paramFault 2 m2 s = some (f, x)) →
      ∃ u, exec (.jf m1 m2 m3) s = .next u ∧ FaultEntered f x s u)

/-- R132: an empty queue suspends and changes `eng` alone; else the front value is popped and stored, and `pc` goes on by
2; a faulting destination has consumed the value. -/
def Obligations.InputFollowsItsRule : Prop :=
  ∀ (m1 m2 m3 : Mode) (s : State),
    (encode (.inp m1 m2 m3)).toInt = 3 + 100 * m1.digit + 1000 * m2.digit + 10000 * m3.digit ∧
    (s.inq = [] → exec (.inp m1 m2 m3) s = .next { s with eng := .suspended }) ∧
    (∀ (v : Word) (rest : List Word), s.inq = v :: rest →
      (Accessible 1 m1 s → ∃ t, exec (.inp m1 m2 m3) s = .next t ∧
        StoredAndAdvanced (touched 1 m1 s) (operandAddr 1 m1 s) v.toInt 2 { s with inq := rest } t) ∧
      (∀ c x, paramFault 1 m1 s = some (c, x) →
        ∃ t, exec (.inp m1 m2 m3) s = .next t ∧ FaultEntered c x { s with inq := rest } t))

/-- R133: the operand is appended to `outq` and `pc` goes on by 2; a faulting operand leaves `outq` as it was. -/
def Obligations.OutputFollowsItsRule : Prop :=
  ∀ (m1 m2 m3 : Mode) (s : State),
    (encode (.out m1 m2 m3)).toInt = 4 + 100 * m1.digit + 1000 * m2.digit + 10000 * m3.digit ∧
    (Accessible 1 m1 s → ∃ t, exec (.out m1 m2 m3) s = .next t ∧ t.pc.toInt = s.pc.toInt + 2 ∧
      t = { s with outq := s.outq ++ [operandWord 1 m1 s], pc := t.pc, len := lenAfter (touched 1 m1 s) s.len }) ∧
    (∀ c x, paramFault 1 m1 s = some (c, x) → ∃ t, exec (.out m1 m2 m3) s = .next t ∧ FaultEntered c x s t)

/-- R150: the operand is read with the old `rb` and added to it, exactly; outside the range OVERFLOW. -/
def Obligations.RelativeBaseOffsetFollowsItsRule : Prop :=
  ∀ (m1 m2 m3 : Mode) (s : State),
    let r := s.rb.toInt + (operandWord 1 m1 s).toInt
    (encode (.arb m1 m2 m3)).toInt = 9 + 100 * m1.digit + 1000 * m2.digit + 10000 * m3.digit ∧
    (Accessible 1 m1 s → InI64 r →
      ∃ t, exec (.arb m1 m2 m3) s = .next t ∧ t.rb.toInt = r ∧ t.pc.toInt = s.pc.toInt + 2 ∧
        t = { s with rb := t.rb, pc := t.pc, len := lenAfter (touched 1 m1 s) s.len }) ∧
    (Accessible 1 m1 s → ¬ InI64 r → ∃ t, exec (.arb m1 m2 m3) s = .next t ∧ FaultEntered .overflow r s t) ∧
    (∀ c x, paramFault 1 m1 s = some (c, x) → ∃ t, exec (.arb m1 m2 m3) s = .next t ∧ FaultEntered c x s t)

/-- R151: `eng` becomes HALTED and nothing else changes; `pc` stays at the Halt word. -/
def Obligations.HaltFollowsItsRule : Prop :=
  ∀ (m1 m2 m3 : Mode) (s : State),
    (encode (.hlt m1 m2 m3)).toInt = 99 + 100 * m1.digit + 1000 * m2.digit + 10000 * m3.digit ∧
    exec (.hlt m1 m2 m3) s = .next { s with eng := .halted }

/-! ### Frames, for every outcome -/

/-- The frame of ADD, MUL, LT and EQ, completed or faulted: no word but the one at the address parameter 3 designates,
and no register but `pc` (and, on a fault, FCAUSE, FINFO and `eng`). -/
def Obligations.FrameOfArithmeticAndComparison : Prop :=
  ∀ (i : Instr) (m1 m2 m3 : Mode) (s t : State),
    (i = .add m1 m2 m3 ∨ i = .mul m1 m2 m3 ∨ i = .lt m1 m2 m3 ∨ i = .eq m1 m2 m3) → exec i s = .next t →
    (∀ d : Int, operandAddr 3 m3 s = d → ∀ a : Nat, a ≠ d.toNat → t.mem.read a = s.mem.read a) ∧
    t.rb = s.rb ∧ t.inq = s.inq ∧ t.outq = s.outq ∧ t.orig = s.orig ∧ t.lastAddr = s.lastAddr ∧
    ((t.eng = s.eng ∧ t.fcause = s.fcause ∧ t.finfo = s.finfo) ∨ (t.eng = .faulted ∧ t.mem = s.mem ∧ t.pc = s.pc))

/-- The frame of IN in each of its three outcomes: no word but the one at the address parameter 1 designates, and no
register but `pc`, `inq` and (on suspension or a fault) the engine's. -/
def Obligations.FrameOfInput : Prop :=
  ∀ (m1 m2 m3 : Mode) (s t : State), exec (.inp m1 m2 m3) s = .next t →
    (∀ d : Int, operandAddr 1 m1 s = d → ∀ a : Nat, a ≠ d.toNat → t.mem.read a = s.mem.read a) ∧
    t.rb = s.rb ∧ t.outq = s.outq ∧ t.orig = s.orig ∧ t.lastAddr = s.lastAddr ∧ t.inq = s.inq.tail ∧
    ((t.eng = s.eng ∧ t.fcause = s.fcause ∧ t.finfo = s.finfo) ∨
     (t.eng = .suspended ∧ s.inq = [] ∧ t = { s with eng := .suspended }) ∨
     (t.eng = .faulted ∧ t.mem = s.mem ∧ t.pc = s.pc))

/-- The frame of OUT, JT, JF, ARB and HLT, which store nothing: every word of memory reads as before, and of the
registers only those the rule names. -/
def Obligations.FrameOfInstructionsThatStoreNothing : Prop :=
  ∀ (i : Instr) (m1 m2 m3 : Mode) (s t : State),
    (i = .out m1 m2 m3 ∨ i = .jt m1 m2 m3 ∨ i = .jf m1 m2 m3 ∨ i = .arb m1 m2 m3 ∨ i = .hlt m1 m2 m3) →
    exec i s = .next t →
    (∀ a : Nat, t.mem.read a = s.mem.read a) ∧ t.inq = s.inq ∧ t.orig = s.orig ∧ t.lastAddr = s.lastAddr ∧
    (i ≠ .arb m1 m2 m3 → t.rb = s.rb) ∧ (i ≠ .out m1 m2 m3 → t.outq = s.outq) ∧
    (i = .hlt m1 m2 m3 → t = { s with eng := .halted }) ∧
    (i ≠ .hlt m1 m2 m3 →
      (t.eng = s.eng ∧ t.fcause = s.fcause ∧ t.finfo = s.finfo) ∨
      (t.eng = .faulted ∧ t.pc = s.pc ∧ t.rb = s.rb ∧ t.outq = s.outq))

/-! ### Faults -/

/-- R197 (with the entry of R196): a step of a core that runs enters the first fault of the list fetch, decode, parameter
1, parameter 2, range check, destination, jump target, and no later one; with none of them it does not fault. -/
def Obligations.FaultsComeInPriorityOrder : Prop :=
  ∀ s : State, s.Awake →
    (∀ c x, stepFault s = some (c, x) → ∃ t, step s = .next t ∧ FaultEntered c x { s with inq := t.inq } t) ∧
    (stepFault s = none → ∃ t, step s = .next t ∧ t.eng ≠ .faulted ∧ t.fcause = s.fcause ∧ t.finfo = s.finfo)

/-- R196: a step that ends FAULTED has written FCAUSE, FINFO and `eng` and nothing else, save that `len` may have grown and
that a faulting Input has popped its value. RUN and STEP report FAULTED (R167, R176) with FCAUSE and FINFO (R176; that
STEP's reply carries the two is log entry 14, DEDUCED). The register-level form is the spec's decision D8. -/
def Obligations.FaultEntryIsPrecise : Prop :=
  ∀ s t : State, s.Awake → step s = .next t → t.eng = .faulted →
    t.fcause ≠ .none ∧ s.len ≤ t.len ∧
    t = { s with fcause := t.fcause, finfo := t.finfo, eng := .faulted, len := t.len, inq := t.inq } ∧
    (t.inq = s.inq ∨ ∃ v m1 m2 m3, s.inq = v :: t.inq ∧ Fetches s (.inp m1 m2 m3)) ∧
    ∀ fuel : Nat, serve fuel .step s = some (.ran .faulted (some (t.fcause, t.finfo)), t) ∧
      serve (fuel + 1) .run s = some (.ran .faulted (some (t.fcause, t.finfo)), t)

/-- R69, R191 and R192: a fetched word that is illegal stops the core with the word as FINFO, and every other word is a
legal instruction word. -/
def Obligations.IllegalWordsStopTheCore : Prop :=
  ∀ s : State, s.Awake → s.Legal s.pc.toInt →
    let w := (fetchWord s).toInt
    let known := w % 100 ∈ ([1, 2, 3, 4, 5, 6, 7, 8, 9, 99] : List Int)
    ((w < 0 ∨ w % 100 = 0 ∨ (10 ≤ w % 100 ∧ w % 100 ≤ 98)) →
      ∃ t, step s = .next t ∧ FaultEntered .unknownOpcode w s t) ∧
    (0 ≤ w → known → (100000 ≤ w ∨ 3 ≤ w / 100 % 10 ∨ 3 ≤ w / 1000 % 10 ∨ 3 ≤ w / 10000 % 10) →
      ∃ t, step s = .next t ∧ FaultEntered .invalidMode w s t) ∧
    (0 ≤ w → known → w < 100000 → w / 100 % 10 ≤ 2 → w / 1000 % 10 ≤ 2 → w / 10000 % 10 ≤ 2 → ∃ i, Fetches s i)

/-- R83: a fetch at or above MEM_WORDS raises ADDRESS_LIMIT; one at or beyond `len` reads 0, which is UNKNOWN_OPCODE. -/
def Obligations.FetchOutsideTheProgramFaults : Prop :=
  ∀ s : State, s.Inv → s.Awake →
    ((s.memWords : Int) ≤ s.pc.toInt → ∃ t, step s = .next t ∧ FaultEntered .addressLimit s.pc.toInt s t) ∧
    (s.pc.toInt < s.memWords → (s.len : Int) ≤ s.pc.toInt →
      ∃ t, step s = .next t ∧ FaultEntered .unknownOpcode 0 s t)

/-! ### The step -/

/-- R82, R83 and R86: on a core that runs (or that RUN and STEP wake), when the word at `pc` decodes to `i`, the step is
`i`'s execution in that state, made RUNNING, with `len` grown by the fetch. -/
def Obligations.StepRunsTheDecodedInstruction : Prop :=
  ∀ (s : State) (i : Instr), s.Awake → 0 ≤ s.pc.toInt → s.pc.toInt < s.memWords →
    decode (s.mem.read s.pc.toInt.toNat) = .instr i →
    step s = exec i { s with eng := .running, len := lenAfter [s.pc.toInt] s.len }

/-- R152 for a halted core, and R167, R168 and R176 (the spec's decision D8) for a faulted one: a step, RUN and STEP
change nothing and report `eng`. That STEP's reply carries FCAUSE and FINFO with FAULTED is log entry 14 (DEDUCED). -/
def Obligations.HaltedAndFaultedCoresStandStill : Prop :=
  ∀ (fuel : Nat) (s : State), s.eng = .halted ∨ s.eng = .faulted →
    step s = .next s ∧ serve fuel .step s = some (ranReply s, s) ∧ serve fuel .run s = some (ranReply s, s)

/-- Every step of every state answers a next state: no fault of Lean's and no refusal ends a run. -/
def Obligations.StepAlwaysAnswersANextState : Prop :=
  (∀ (i : Instr) (s : State), ∃ t, exec i s = .next t) ∧ ∀ s : State, ∃ t, step s = .next t

/-- R80, the rows of a step: a step suspends exactly on an Input that finds `inq` empty, halts exactly on a Halt, and
else leaves the core RUNNING or FAULTED, FAULTED exactly when a fault is raised. -/
def Obligations.StepFollowsTheEngineTable : Prop :=
  ∀ s t : State, s.Awake → step s = .next t →
    (t.eng = .suspended ↔ ∃ m1 m2 m3, Fetches s (.inp m1 m2 m3) ∧ s.inq = []) ∧
    (t.eng = .halted ↔ ∃ m1 m2 m3, Fetches s (.hlt m1 m2 m3)) ∧
    (t.eng = .faulted ↔ stepFault s ≠ none) ∧
    (t.eng = .running ↔ stepFault s = none ∧
      ∃ i, Fetches s i ∧ (∀ m1 m2 m3, i ≠ .hlt m1 m2 m3) ∧ ¬ (s.inq = [] ∧ ∃ m1 m2 m3, i = .inp m1 m2 m3))

/-- R23: of the instructions only RelativeBaseOffset writes `rb`, and of the commands that run none only LOAD, RESET and
INSTALL. -/
def Obligations.OnlyRelativeBaseOffsetWritesTheBase : Prop :=
  (∀ s t : State, step s = .next t → t.rb ≠ s.rb → ∃ m1 m2 m3, Fetches s (.arb m1 m2 m3)) ∧
  ∀ (fuel : Nat) (c : Command) (s t : State) (r : Reply), serve fuel c s = some (r, t) → c ≠ .run → c ≠ .step →
    t.rb ≠ s.rb → (∃ ws, c = .load ws) ∨ c = .reset ∨ ∃ snap, c = .install snap

/-- R85: a step that leaves the core RUNNING has advanced `pc` by the fetched instruction's width, unless it is a jump,
which may also have set `pc` to its second operand; a step that suspends or halts leaves `pc` (R85), and so does one that
faults (R196, the spec's decisions D7 and D8, where the source defines nothing: 93_implementation_defined.md I17). -/
def Obligations.ProgramCounterAdvancesByTheWidth : Prop :=
  ∀ s t : State, s.Awake → step s = .next t →
    (t.eng ≠ .running → t.pc = s.pc) ∧
    (t.eng = .running → ∃ i, Fetches s i ∧
      (t.pc.toInt = s.pc.toInt + i.width ∨
       ∃ m1 m2 m3, (i = .jt m1 m2 m3 ∨ i = .jf m1 m2 m3) ∧ t.pc = operandWord 2 m2 s))

/-- R130 and R131: a step takes at most the front of `inq`, and only an Input does; it adds at most one value at the back of
`outq`, and only an Output does. -/
def Obligations.QueuesKeepFifoOrder : Prop :=
  ∀ s t : State, step s = .next t →
    (t.inq = s.inq ∨ ∃ v m1 m2 m3, s.inq = v :: t.inq ∧ Fetches s (.inp m1 m2 m3)) ∧
    (t.outq = s.outq ∨ ∃ v m1 m2 m3, t.outq = s.outq ++ [v] ∧ Fetches s (.out m1 m2 m3))

/-- R30 and R42: no step writes the original memory or the machine's size, and none makes `len` smaller, so
`len >= olen` is kept (R29); no command but LOAD writes the original memory. -/
def Obligations.NoStepShrinksMemoryOrWritesTheOriginal : Prop :=
  (∀ s t : State, step s = .next t →
    t.orig = s.orig ∧ t.lastAddr = s.lastAddr ∧ s.len ≤ t.len ∧ (s.CoversOriginal → t.CoversOriginal)) ∧
  ∀ (fuel : Nat) (c : Command) (s t : State) (r : Reply), serve fuel c s = some (r, t) →
    t.lastAddr = s.lastAddr ∧ (t.orig ≠ s.orig → ∃ ws, c = .load ws)

/-- R58 and R215: a word stored at the place of the next fetch is what the next step executes. -/
def Obligations.StoredWordIsFetchedAtOnce : Prop :=
  ∀ (s t : State) (a : Int) (v : Word) (i : Instr), memWrite a v s = .ok () t → t.pc.toInt = a → t.Awake →
    decode v = .instr i → step t = exec i t.fetched ∧ fetchWord t = v

/-! ### Invariants -/

/-- The invariant holds right after reset (the model's reset, log entries 1 and 2) and after every LOAD that is not
refused (R210). -/
def Obligations.ResetAndLoadMeetTheInvariant : Prop :=
  State.reset.Inv ∧ State.reset.CoversOriginal ∧
  ∀ (ws : List Word) (lastAddr : Fin Config.memWordsMax), ws.length ≤ lastAddr.val + 1 →
    (State.loaded ws lastAddr).Inv ∧ (State.loaded ws lastAddr).CoversOriginal

/-- Every step, from every state that meets the invariant, leads to one that does: `pc` is never negative (R22), memory
keeps its form and its bound (R29, R41), FCAUSE is NONE exactly when the core is not FAULTED (R25), FINFO is 0 then (R26). -/
def Obligations.EveryStepKeepsTheInvariant : Prop :=
  ∀ s t : State, s.Inv → step s = .next t → t.Inv

/-- Every host command keeps the invariant, an INSTALL being given a snapshot of an instance of the same machine. -/
def Obligations.EveryCommandKeepsTheInvariant : Prop :=
  ∀ (fuel : Nat) (c : Command) (s t : State) (r : Reply), s.Inv →
    (∀ snap, c = .install snap → snap.FromSameMachine s.lastAddr) →
    serve fuel c s = some (r, t) → t.Inv

/-! ### The host port -/

/-- R162 and R210: LOAD builds the whole load state, or is refused when the words are none or too many. -/
def Obligations.LoadBuildsTheLoadState : Prop :=
  ∀ (fuel : Nat) (ws : List Word) (s : State),
    (ws ≠ [] → ws.length ≤ s.memWords → ∃ t, serve fuel (.load ws) s = some (.ok, t) ∧
      (∀ a : Nat, t.mem.read a = ws.getD a 0) ∧ t.len = ws.length ∧ t.orig = ws ∧ t.olen = ws.length ∧ t.pc = 0 ∧
      t.rb = 0 ∧ t.eng = .running ∧ t.fcause = .none ∧ t.finfo = 0 ∧ t.inq = [] ∧ t.outq = [] ∧
      t.lastAddr = s.lastAddr) ∧
    (ws = [] ∨ s.memWords < ws.length → serve fuel (.load ws) s = some (.refused, s))

/-- R171 and R211: RESET restores the original, clears `pc`, `rb`, `outq` and the engine, and leaves the rest; it is
refused in FAULTED. -/
def Obligations.ResetRestoresTheOriginal : Prop :=
  ∀ (fuel : Nat) (s : State),
    (s.eng ≠ .faulted → ∃ t, serve fuel .reset s = some (.ok, t) ∧
      (∀ a : Nat, t.mem.read a = s.orig.getD a 0) ∧
      t = { s with mem := t.mem, len := s.olen, pc := 0, rb := 0, outq := [], eng := .running }) ∧
    (s.eng = .faulted → serve fuel .reset s = some (.refused, s))

/-- R164 and R165: POKE writes one word of the live memory alone, PEEK reads one; their refusals. -/
def Obligations.PokeAndPeekReachOneWord : Prop :=
  ∀ (fuel : Nat) (a : Int) (v : Word) (s : State),
    (s.eng ≠ .faulted → 0 ≤ a → a < s.memWords → ∃ t, serve fuel (.poke a v) s = some (.ok, t) ∧
      (∀ b : Nat, t.mem.read b = if b = a.toNat then v else s.mem.read b) ∧
      t = { s with mem := t.mem, len := lenAfter [a] s.len }) ∧
    (s.eng = .faulted ∨ a < 0 ∨ s.memWords ≤ a → serve fuel (.poke a v) s = some (.refused, s)) ∧
    (0 ≤ a → a < s.memWords →
      serve fuel (.peek a) s = some (.word (s.mem.read a.toNat), { s with len := lenAfter [a] s.len })) ∧
    (a < 0 ∨ s.memWords ≤ a → serve fuel (.peek a) s = some (.refused, s))

/-- R166, R169, R170 and R172: ENQ appends at the back of `inq`; OUT_READ answers `outq` and changes nothing; OUT_CLEAR
empties it; STATUS answers the three registers and changes nothing. -/
def Obligations.QueueAndStatusCommandsFollowTheirRules : Prop :=
  ∀ (fuel : Nat) (v : Word) (s : State),
    (s.eng ≠ .faulted → serve fuel (.enq v) s = some (.ok, { s with inq := s.inq ++ [v] }) ∧
      serve fuel .outClear s = some (.ok, { s with outq := [] })) ∧
    (s.eng = .faulted → serve fuel (.enq v) s = some (.refused, s) ∧ serve fuel .outClear s = some (.refused, s)) ∧
    serve fuel .outRead s = some (.words s.outq, s) ∧
    serve fuel .status s = some (.status s.eng s.fcause s.finfo, s)

/-- R173 and R174: what CAPTURE takes from one instance and INSTALL puts into another is `M`, `len`, `pc` and `rb`; the
target keeps its original, queues and fault registers, and SUSPENDED becomes RUNNING (the spec's decision D18). That the
two instances may differ in MEM_WORDS is log entry 10 (DEDUCED): the spec describes instances of one machine. -/
def Obligations.InstallOverwritesWithTheCapturedState : Prop :=
  ∀ (fuel : Nat) (a b : State), ∃ snap : Snapshot,
    serve fuel .capture a = some (.snapshot snap, a) ∧
    (b.eng ≠ .faulted → serve fuel (.install snap) b = some (.ok, { b with
      mem := a.mem, len := a.len, pc := a.pc, rb := a.rb,
      eng := if b.eng = .suspended then .running else b.eng })) ∧
    (b.eng = .faulted → serve fuel (.install snap) b = some (.refused, b))

/-- R176 (decision D8): in FAULTED the commands that would change state are refused, the reading ones are served, RUN and
STEP change nothing and report the fault, and only LOAD leaves FAULTED. -/
def Obligations.FaultedCoreServesOnlyReads : Prop :=
  ∀ (fuel : Nat) (c : Command) (s t : State) (r : Reply), s.eng = .faulted → serve fuel c s = some (r, t) →
    ((∃ v, c = .enq v) ∨ (∃ a v, c = .poke a v) ∨ c = .outClear ∨ c = .reset ∨ (∃ snap, c = .install snap) →
      r = .refused ∧ t = s) ∧
    (c = .outRead ∨ c = .status ∨ c = .capture ∨ (∃ a, c = .peek a ∧ s.Legal a) → r ≠ .refused) ∧
    (c = .run ∨ c = .step → r = .ran .faulted (some (s.fcause, s.finfo)) ∧ t = s) ∧
    ((∀ ws, c ≠ .load ws) → t.eng = .faulted ∧ t.fcause = s.fcause ∧ t.finfo = s.finfo ∧ t.mem = s.mem ∧ t.pc = s.pc) ∧
    (∀ ws, c = .load ws → r = .ok → t.eng = .running ∧ t.fcause = .none ∧ t.finfo = 0)

/-- R161: a refused command changes no state. -/
def Obligations.RefusedCommandsChangeNothing : Prop :=
  ∀ (fuel : Nat) (c : Command) (s t : State), serve fuel c s = some (.refused, t) → t = s

/-- R80, the rows of the commands: what each command that is not RUN or STEP does to `eng`. -/
def Obligations.CommandsFollowTheEngineTable : Prop :=
  ∀ (fuel : Nat) (c : Command) (s t : State) (r : Reply), serve fuel c s = some (r, t) → c ≠ .run → c ≠ .step →
    (t.eng ≠ s.eng → t.eng = .running ∧
      ((∃ ws, c = .load ws) ∨ (c = .reset ∧ s.eng ≠ .faulted) ∨ (∃ snap, c = .install snap) ∧ s.eng = .suspended)) ∧
    (c = .reset → s.eng ≠ .faulted → t.eng = .running) ∧
    (∀ ws, c = .load ws → r = .ok → t.eng = .running) ∧
    (∀ snap, c = .install snap → s.eng = .suspended → t.eng = .running)

/-- R168: a sequence of STEPs that ends in SUSPENDED, HALTED or FAULTED leaves the state a single RUN leaves from the same
start, and a RUN that returns leaves a state some sequence of STEPs leaves; RUN and the last STEP report that state alike.
RUN is served with fuel (log entry 7). -/
def Obligations.RunEqualsRepeatedSteps : Prop :=
  ∀ s t : State,
    ((∃ n rs, 1 ≤ n ∧ serveAll 0 (List.replicate n .step) s = some (rs, t) ∧ t.eng ≠ .running) ↔
      ∃ fuel r, serve fuel .run s = some (r, t)) ∧
    (∀ fuel r, serve fuel .run s = some (r, t) → r = ranReply t) ∧
    ∀ n rs, 1 ≤ n → serveAll 0 (List.replicate n .step) s = some (rs, t) → rs.getLast? = some (ranReply t)

/-- R134 and R135: a RUN that suspends, is given more input and is run again ends in the state of a RUN that had all the
input from the start. Each RUN is served with fuel (log entry 7): for the one from the start some fuel is enough. -/
def Obligations.SuspendedRunResumesAsIfNeverSuspended : Prop :=
  ∀ (n m : Nat) (s t u : State) (r q : Reply) (vs : List Word),
    serve n .run s = some (r, t) → t.eng = .suspended →
    serve m .run { t with inq := t.inq ++ vs } = some (q, u) →
    ∃ k, serve k .run { s with inq := s.inq ++ vs } = some (q, u)

/-- R134: a suspending step leaves memory, `rb`, `pc` and the queues, so that running again with `inq` still empty suspends
again with no change. -/
def Obligations.SuspendingAgainChangesNothing : Prop :=
  ∀ s t : State, step s = .next t → t.eng = .suspended → s.Awake →
    t.inq = [] ∧ t = { s with eng := .suspended, len := t.len } ∧ step t = .next t

/-- R32: `len` is unobservable: states and commands that differ in nothing but `len` get replies and states that differ in
nothing but `len`. -/
def Obligations.LengthIsUnobservable : Prop :=
  ∀ (fuel : Nat) (c d : Command) (s t : State), c.forgetLen = d.forgetLen → s.forgetLen = t.forgetLen →
    (serve fuel c s).map (fun rs => (rs.1.forgetLen, rs.2.forgetLen)) =
      (serve fuel d t).map (fun rs => (rs.1.forgetLen, rs.2.forgetLen))

/-- R33 and R175: a command to one instance is served from that instance's state and leaves every other instance as it
was. -/
def Obligations.InstancesAreIndependent : Prop :=
  ∀ (fuel k : Nat) (c : Command) (cs ds : Cores) (r : Reply), Cores.serve fuel k c cs = some (r, ds) →
    (∃ s t, cs[k]? = some s ∧ Machine.serve fuel c s = some (r, t) ∧ ds[k]? = some t) ∧
    ∀ j, j ≠ k → ds[j]? = cs[j]?

/-! ### The port as the host sees it -/

/-- R173: CAPTURE, in every state of the instance, changes no instance, takes `(M, len, pc, rb)` and nothing else, and
answers the host a token that stands for it: what the host is answered is the same whatever the snapshot holds. -/
def Obligations.CaptureAnswersAnOpaqueToken : Prop :=
  ∀ (fuel k : Nat) (p : Port) (s : State), p.cores[k]? = some s →
    Port.serve fuel k .capture p =
      some (.snapshot ⟨p.held.length⟩, { p with held := p.held ++ [⟨s.mem, s.len, s.pc, s.rb⟩] })

/-- R173 and R174 at the port: INSTALL puts in what the token's CAPTURE took, from whichever instance, however long ago;
a token no CAPTURE answered installs nothing and is refused (the model's choice, log entry 15). -/
def Obligations.OnlyCapturedSnapshotsAreInstalled : Prop :=
  ∀ (fuel k : Nat) (p : Port) (s : State) (token : Token), p.cores[k]? = some s →
    (∀ snap, p.held[token.number]? = some snap → s.eng ≠ .faulted →
      Port.serve fuel k (.install token) p = some (.ok, { p with cores := p.cores.set k { s with
        mem := snap.mem, len := snap.len, pc := snap.pc, rb := snap.rb,
        eng := if s.eng = .suspended then .running else s.eng } })) ∧
    (p.held[token.number]? = none ∨ s.eng = .faulted → Port.serve fuel k (.install token) p = some (.refused, p)) ∧
    ∀ (c : HostCommand) (j : Nat) (q : Port) (r : HostReply), Port.serve fuel j c p = some (r, q) →
      ∀ n, n < p.held.length → q.held[n]? = p.held[n]?

/-- R32 with R173: no sequence of the host's commands, to any instances, gets other replies from ports that differ in
nothing but `len`, in the instances and in the snapshots taken. -/
def Obligations.RepliesShowNothingOfTheLength : Prop :=
  ∀ (fuel : Nat) (cs : List (Nat × HostCommand)) (p q : Port), p.forgetLen = q.forgetLen →
    (Port.serveAll fuel cs p).map Prod.fst = (Port.serveAll fuel cs q).map Prod.fst

/-- Every command of the host, to any instance, keeps the invariant of the port. There is no premise on INSTALL: the host's
tokens stand for captured snapshots alone (R173). -/
def Obligations.EveryHostCommandKeepsThePortInvariant : Prop :=
  ∀ (fuel k : Nat) (c : HostCommand) (lastAddr : Fin Config.memWordsMax) (p q : Port) (r : HostReply),
    p.Inv lastAddr → Port.serve fuel k c p = some (r, q) → q.Inv lastAddr
end

