-- ==== Sys2Proof/Laws/Memory.lean ====
section
/-! SUPPORT. Memory as data: what a write leaves to be read, and that every operation keeps the canonical form. -/

namespace Sys2Proof.Machine.Memory

/-! ### Reading after writing -/

@[simp] theorem read_nil (a : Nat) : Memory.read [] a = 0 := rfl

theorem read_cons (b : Nat) (x : Word) (m : Memory) (a : Nat) :
    Memory.read ((b, x) :: m) a = if b = a then x else m.read a := rfl

theorem read_eq_zero_of_absent {m : Memory} {a : Nat} (h : ∀ c ∈ m, c.1 ≠ a) : m.read a = 0 := by
  induction m with
  | nil => rfl
  | cons c m ih =>
    rw [read_cons, if_neg (h c (by simp))]
    exact ih fun d hd => h d (by simp [hd])

theorem mem_remove {m : Memory} {a : Nat} {c : Nat × Word} : c ∈ m.remove a ↔ c ∈ m ∧ c.1 ≠ a := by
  induction m with
  | nil => simp [remove]
  | cons d m ih =>
    obtain ⟨x, v⟩ := d
    by_cases hx : x = a
    · simp only [remove, hx, if_true, ih, List.mem_cons]
      constructor
      · exact fun h => ⟨.inr h.1, h.2⟩
      · rintro ⟨rfl | h, hc⟩
        · exact absurd rfl hc
        · exact ⟨h, hc⟩
    · simp only [remove, hx, if_false, ih, List.mem_cons]
      constructor
      · rintro (rfl | h)
        · exact ⟨.inl rfl, hx⟩
        · exact ⟨.inr h.1, h.2⟩
      · rintro ⟨rfl | h, hc⟩
        · exact .inl rfl
        · exact .inr ⟨h, hc⟩

theorem mem_insert {m : Memory} {a : Nat} {v : Word} {c : Nat × Word} :
    c ∈ m.insert a v ↔ c = (a, v) ∨ c ∈ m := by
  induction m with
  | nil => simp [insert]
  | cons d m ih =>
    obtain ⟨x, w⟩ := d
    by_cases hx : a < x
    · simp [insert, hx]
    · simp only [insert, hx, if_false, List.mem_cons, ih]
      exact or_left_comm

theorem read_remove (m : Memory) (a b : Nat) : (m.remove a).read b = if b = a then 0 else m.read b := by
  induction m with
  | nil => simp [remove]
  | cons c m ih =>
    obtain ⟨x, v⟩ := c
    by_cases hx : x = a
    · rw [remove, if_pos hx, ih, read_cons]
      by_cases hb : b = a
      · rw [if_pos hb, if_pos hb]
      · rw [if_neg hb, if_neg hb, if_neg (by omega)]
    · rw [remove, if_neg hx, read_cons, read_cons, ih]
      by_cases hb : b = a
      · rw [if_pos hb, if_pos hb, if_neg (by omega)]
      · rw [if_neg hb, if_neg hb]

theorem read_insert {m : Memory} {a : Nat} (h : ∀ c ∈ m, c.1 ≠ a) (v : Word) (b : Nat) :
    (m.insert a v).read b = if b = a then v else m.read b := by
  induction m with
  | nil => simp [insert, read_cons, eq_comm]
  | cons c m ih =>
    obtain ⟨x, w⟩ := c
    have hx : x ≠ a := h (x, w) (by simp)
    have ih := ih fun d hd => h d (by simp [hd])
    by_cases ha : a < x
    · simp only [insert, ha, if_true, read_cons]
      by_cases hb : b = a
      · simp [hb]
      · simp [hb, Ne.symm hb]
    · simp only [insert, ha, if_false, read_cons, ih]
      by_cases hb : b = a
      · simp [hb, hx]
      · simp [hb]

/-- A write is read back at its address and changes no other (20_memory.md R45, R55). -/
theorem read_write (m : Memory) (a : Nat) (v : Word) (b : Nat) :
    (m.write a v).read b = if b = a then v else m.read b := by
  unfold write
  split
  · next hv => rw [read_remove, hv]
  · rw [read_insert (fun c hc => (mem_remove.mp hc).2), read_remove]
    split <;> rfl

theorem ofWords_cons_zero (a : Nat) (ws : List Word) : ofWords a (0 :: ws) = ofWords (a + 1) ws := if_pos rfl

theorem ofWords_cons_ne (a : Nat) {w : Word} (h : w ≠ 0) (ws : List Word) :
    ofWords a (w :: ws) = (a, w) :: ofWords (a + 1) ws := if_neg h

/-- A loaded memory reads the loaded words, and 0 elsewhere (70_reset_and_hazards.md R210). -/
theorem read_ofWords (ws : List Word) (a b : Nat) :
    (ofWords a ws).read b = if a ≤ b then ws.getD (b - a) 0 else 0 := by
  induction ws generalizing a with
  | nil => simp [ofWords]
  | cons w ws ih =>
    have key : (ofWords (a + 1) ws).read b = if a + 1 ≤ b then ws.getD (b - (a + 1)) 0 else 0 := ih (a + 1)
    have hread : (ofWords a (w :: ws)).read b = if a = b then w else (ofWords (a + 1) ws).read b := by
      by_cases hw : w = 0
      · subst hw
        rw [ofWords_cons_zero]
        split
        · rw [key, if_neg (by omega)]
        · rfl
      · rw [ofWords_cons_ne a hw, read_cons]
    rw [hread, key]
    by_cases hab : a = b
    · subst hab
      simp
    · rw [if_neg hab]
      by_cases hle : a ≤ b
      · have : b - a = (b - (a + 1)) + 1 := by omega
        rw [if_pos (by omega), if_pos hle, this, List.getD_cons_succ]
      · rw [if_neg (by omega), if_neg hle]

/-! ### Membership -/

theorem mem_write {m : Memory} {a : Nat} {v : Word} {c : Nat × Word} (h : c ∈ m.write a v) :
    c = (a, v) ∨ c ∈ m := by
  unfold write at h
  split at h
  · exact .inr (mem_remove.mp h).1
  · exact (mem_insert.mp h).imp_right fun h => (mem_remove.mp h).1

theorem mem_ofWords {ws : List Word} {a : Nat} {c : Nat × Word} (h : c ∈ ofWords a ws) :
    a ≤ c.1 ∧ c.1 < a + ws.length ∧ c.2 ≠ 0 := by
  induction ws generalizing a with
  | nil => simp [ofWords] at h
  | cons w ws ih =>
    have step : c ∈ ofWords (a + 1) ws → a ≤ c.1 ∧ c.1 < a + (w :: ws).length ∧ c.2 ≠ 0 := fun hc => by
      obtain ⟨h1, h2, h3⟩ := ih hc
      rw [List.length_cons]
      exact ⟨by omega, by omega, h3⟩
    by_cases hw : w = 0
    · subst hw
      exact step (ofWords_cons_zero a ws ▸ h)
    · rw [ofWords_cons_ne a hw] at h
      rcases List.mem_cons.mp h with rfl | h
      · exact ⟨Nat.le_refl _, by simp, hw⟩
      · exact step h

/-! ### The canonical form -/

theorem wf_nil : Memory.wf [] := by simp [Memory.wf]

theorem wf_cons {c : Nat × Word} {m : Memory} :
    Memory.wf (c :: m) ↔ (∀ d ∈ m, c.1 < d.1) ∧ c.2 ≠ 0 ∧ m.wf := by
  simp only [Memory.wf, List.pairwise_cons, List.mem_cons, forall_eq_or_imp]
  tauto

theorem wf_remove {m : Memory} (h : m.wf) (a : Nat) : (m.remove a).wf := by
  induction m with
  | nil => exact wf_nil
  | cons c m ih =>
    obtain ⟨x, v⟩ := c
    obtain ⟨h1, h2, h3⟩ := wf_cons.mp h
    by_cases hx : x = a
    · simpa [remove, hx] using ih h3
    · simp only [remove, hx, if_false]
      exact wf_cons.mpr ⟨fun d hd => h1 d (mem_remove.mp hd).1, h2, ih h3⟩

theorem wf_insert {m : Memory} {a : Nat} {v : Word} (h : m.wf) (ha : ∀ c ∈ m, c.1 ≠ a) (hv : v ≠ 0) :
    (m.insert a v).wf := by
  induction m with
  | nil => exact wf_cons.mpr ⟨by simp, hv, wf_nil⟩
  | cons c m ih =>
    obtain ⟨x, w⟩ := c
    obtain ⟨h1, h2, h3⟩ := wf_cons.mp h
    by_cases hx : a < x
    · simp only [insert, hx, if_true]
      refine wf_cons.mpr ⟨?_, hv, h⟩
      intro d hd
      rcases List.mem_cons.mp hd with rfl | hd
      · exact hx
      · exact hx.trans (h1 d hd)
    · simp only [insert, hx, if_false]
      refine wf_cons.mpr ⟨?_, h2, ih h3 fun d hd => ha d (by simp [hd])⟩
      intro d hd
      rcases mem_insert.mp hd with rfl | hd
      · have : x ≠ a := ha (x, w) (by simp)
        simp only; omega
      · exact h1 d hd

/-- A write keeps the canonical form. -/
theorem wf_write {m : Memory} (h : m.wf) (a : Nat) (v : Word) : (m.write a v).wf := by
  unfold write
  split
  · exact wf_remove h a
  · next hv => exact wf_insert (wf_remove h a) (fun c hc => (mem_remove.mp hc).2) hv

/-- A loaded program's memory has the canonical form. -/
theorem wf_ofWords (ws : List Word) (a : Nat) : (ofWords a ws).wf := by
  induction ws generalizing a with
  | nil => exact wf_nil
  | cons w ws ih =>
    by_cases hw : w = 0
    · subst hw
      exact ofWords_cons_zero a ws ▸ ih (a + 1)
    · rw [ofWords_cons_ne a hw]
      exact wf_cons.mpr ⟨fun d hd => (mem_ofWords hd).1, hw, ih (a + 1)⟩

end Sys2Proof.Machine.Memory
end

