-- ==== Sys2Proof/Laws/State.lean ====
section
/-! SUPPORT. One lemma per field of State per update, true by definition, so that no later proof unfolds a record
update. -/

namespace Sys2Proof.Machine

/-- The state with another `len`: all that an access can change when it completes (20_memory.md R44). -/
def State.withLen (s : State) (n : Nat) : State := { s with len := n }

theorem State.grow_eq_withLen (s : State) (a : Nat) : s.grow a = s.withLen (max s.len (a + 1)) := rfl

@[simp] theorem State.withLen_withLen (s : State) (m n : Nat) : (s.withLen m).withLen n = s.withLen n := rfl

@[simp] theorem State.withLen_self (s : State) : s.withLen s.len = s := rfl

theorem State.forgetLen_eq_withLen (s : State) : s.forgetLen = s.withLen 0 := rfl

/-! ### `grow` -/

@[simp] theorem State.grow_mem (s : State) (a : Nat) : (s.grow a).mem = s.mem := rfl
@[simp] theorem State.grow_len (s : State) (a : Nat) : (s.grow a).len = max s.len (a + 1) := rfl
@[simp] theorem State.grow_orig (s : State) (a : Nat) : (s.grow a).orig = s.orig := rfl
@[simp] theorem State.grow_pc (s : State) (a : Nat) : (s.grow a).pc = s.pc := rfl
@[simp] theorem State.grow_rb (s : State) (a : Nat) : (s.grow a).rb = s.rb := rfl
@[simp] theorem State.grow_eng (s : State) (a : Nat) : (s.grow a).eng = s.eng := rfl
@[simp] theorem State.grow_fcause (s : State) (a : Nat) : (s.grow a).fcause = s.fcause := rfl
@[simp] theorem State.grow_finfo (s : State) (a : Nat) : (s.grow a).finfo = s.finfo := rfl
@[simp] theorem State.grow_inq (s : State) (a : Nat) : (s.grow a).inq = s.inq := rfl
@[simp] theorem State.grow_outq (s : State) (a : Nat) : (s.grow a).outq = s.outq := rfl
@[simp] theorem State.grow_lastAddr (s : State) (a : Nat) : (s.grow a).lastAddr = s.lastAddr := rfl
@[simp] theorem State.grow_memWords (s : State) (a : Nat) : (s.grow a).memWords = s.memWords := rfl

/-! ### `store` -/

@[simp] theorem State.store_mem (s : State) (a : Nat) (v : Word) : (s.store a v).mem = s.mem.write a v := rfl
@[simp] theorem State.store_len (s : State) (a : Nat) (v : Word) : (s.store a v).len = s.len := rfl
@[simp] theorem State.store_orig (s : State) (a : Nat) (v : Word) : (s.store a v).orig = s.orig := rfl
@[simp] theorem State.store_pc (s : State) (a : Nat) (v : Word) : (s.store a v).pc = s.pc := rfl
@[simp] theorem State.store_rb (s : State) (a : Nat) (v : Word) : (s.store a v).rb = s.rb := rfl
@[simp] theorem State.store_eng (s : State) (a : Nat) (v : Word) : (s.store a v).eng = s.eng := rfl
@[simp] theorem State.store_fcause (s : State) (a : Nat) (v : Word) : (s.store a v).fcause = s.fcause := rfl
@[simp] theorem State.store_finfo (s : State) (a : Nat) (v : Word) : (s.store a v).finfo = s.finfo := rfl
@[simp] theorem State.store_inq (s : State) (a : Nat) (v : Word) : (s.store a v).inq = s.inq := rfl
@[simp] theorem State.store_outq (s : State) (a : Nat) (v : Word) : (s.store a v).outq = s.outq := rfl
@[simp] theorem State.store_lastAddr (s : State) (a : Nat) (v : Word) : (s.store a v).lastAddr = s.lastAddr := rfl
@[simp] theorem State.store_memWords (s : State) (a : Nat) (v : Word) : (s.store a v).memWords = s.memWords := rfl

/-! ### `advance` -/

@[simp] theorem State.advance_mem (s : State) (n : Nat) : (s.advance n).mem = s.mem := rfl
@[simp] theorem State.advance_len (s : State) (n : Nat) : (s.advance n).len = s.len := rfl
@[simp] theorem State.advance_orig (s : State) (n : Nat) : (s.advance n).orig = s.orig := rfl
@[simp] theorem State.advance_pc (s : State) (n : Nat) : (s.advance n).pc = Word.ofInt (s.pc.toInt + n) := rfl
@[simp] theorem State.advance_rb (s : State) (n : Nat) : (s.advance n).rb = s.rb := rfl
@[simp] theorem State.advance_eng (s : State) (n : Nat) : (s.advance n).eng = s.eng := rfl
@[simp] theorem State.advance_fcause (s : State) (n : Nat) : (s.advance n).fcause = s.fcause := rfl
@[simp] theorem State.advance_finfo (s : State) (n : Nat) : (s.advance n).finfo = s.finfo := rfl
@[simp] theorem State.advance_inq (s : State) (n : Nat) : (s.advance n).inq = s.inq := rfl
@[simp] theorem State.advance_outq (s : State) (n : Nat) : (s.advance n).outq = s.outq := rfl
@[simp] theorem State.advance_lastAddr (s : State) (n : Nat) : (s.advance n).lastAddr = s.lastAddr := rfl
@[simp] theorem State.advance_memWords (s : State) (n : Nat) : (s.advance n).memWords = s.memWords := rfl

/-! ### `goto` -/

@[simp] theorem State.goto_mem (s : State) (t : Word) : (s.goto t).mem = s.mem := rfl
@[simp] theorem State.goto_len (s : State) (t : Word) : (s.goto t).len = s.len := rfl
@[simp] theorem State.goto_orig (s : State) (t : Word) : (s.goto t).orig = s.orig := rfl
@[simp] theorem State.goto_pc (s : State) (t : Word) : (s.goto t).pc = t := rfl
@[simp] theorem State.goto_rb (s : State) (t : Word) : (s.goto t).rb = s.rb := rfl
@[simp] theorem State.goto_eng (s : State) (t : Word) : (s.goto t).eng = s.eng := rfl
@[simp] theorem State.goto_fcause (s : State) (t : Word) : (s.goto t).fcause = s.fcause := rfl
@[simp] theorem State.goto_finfo (s : State) (t : Word) : (s.goto t).finfo = s.finfo := rfl
@[simp] theorem State.goto_inq (s : State) (t : Word) : (s.goto t).inq = s.inq := rfl
@[simp] theorem State.goto_outq (s : State) (t : Word) : (s.goto t).outq = s.outq := rfl
@[simp] theorem State.goto_lastAddr (s : State) (t : Word) : (s.goto t).lastAddr = s.lastAddr := rfl
@[simp] theorem State.goto_memWords (s : State) (t : Word) : (s.goto t).memWords = s.memWords := rfl

/-! ### `setBase` -/

@[simp] theorem State.setBase_mem (s : State) (r : Word) : (s.setBase r).mem = s.mem := rfl
@[simp] theorem State.setBase_len (s : State) (r : Word) : (s.setBase r).len = s.len := rfl
@[simp] theorem State.setBase_orig (s : State) (r : Word) : (s.setBase r).orig = s.orig := rfl
@[simp] theorem State.setBase_pc (s : State) (r : Word) : (s.setBase r).pc = s.pc := rfl
@[simp] theorem State.setBase_rb (s : State) (r : Word) : (s.setBase r).rb = r := rfl
@[simp] theorem State.setBase_eng (s : State) (r : Word) : (s.setBase r).eng = s.eng := rfl
@[simp] theorem State.setBase_fcause (s : State) (r : Word) : (s.setBase r).fcause = s.fcause := rfl
@[simp] theorem State.setBase_finfo (s : State) (r : Word) : (s.setBase r).finfo = s.finfo := rfl
@[simp] theorem State.setBase_inq (s : State) (r : Word) : (s.setBase r).inq = s.inq := rfl
@[simp] theorem State.setBase_outq (s : State) (r : Word) : (s.setBase r).outq = s.outq := rfl
@[simp] theorem State.setBase_lastAddr (s : State) (r : Word) : (s.setBase r).lastAddr = s.lastAddr := rfl
@[simp] theorem State.setBase_memWords (s : State) (r : Word) : (s.setBase r).memWords = s.memWords := rfl

/-! ### `setEng` -/

@[simp] theorem State.setEng_mem (s : State) (e : Eng) : (s.setEng e).mem = s.mem := rfl
@[simp] theorem State.setEng_len (s : State) (e : Eng) : (s.setEng e).len = s.len := rfl
@[simp] theorem State.setEng_orig (s : State) (e : Eng) : (s.setEng e).orig = s.orig := rfl
@[simp] theorem State.setEng_pc (s : State) (e : Eng) : (s.setEng e).pc = s.pc := rfl
@[simp] theorem State.setEng_rb (s : State) (e : Eng) : (s.setEng e).rb = s.rb := rfl
@[simp] theorem State.setEng_eng (s : State) (e : Eng) : (s.setEng e).eng = e := rfl
@[simp] theorem State.setEng_fcause (s : State) (e : Eng) : (s.setEng e).fcause = s.fcause := rfl
@[simp] theorem State.setEng_finfo (s : State) (e : Eng) : (s.setEng e).finfo = s.finfo := rfl
@[simp] theorem State.setEng_inq (s : State) (e : Eng) : (s.setEng e).inq = s.inq := rfl
@[simp] theorem State.setEng_outq (s : State) (e : Eng) : (s.setEng e).outq = s.outq := rfl
@[simp] theorem State.setEng_lastAddr (s : State) (e : Eng) : (s.setEng e).lastAddr = s.lastAddr := rfl
@[simp] theorem State.setEng_memWords (s : State) (e : Eng) : (s.setEng e).memWords = s.memWords := rfl

/-! ### `emit` -/

@[simp] theorem State.emit_mem (s : State) (v : Word) : (s.emit v).mem = s.mem := rfl
@[simp] theorem State.emit_len (s : State) (v : Word) : (s.emit v).len = s.len := rfl
@[simp] theorem State.emit_orig (s : State) (v : Word) : (s.emit v).orig = s.orig := rfl
@[simp] theorem State.emit_pc (s : State) (v : Word) : (s.emit v).pc = s.pc := rfl
@[simp] theorem State.emit_rb (s : State) (v : Word) : (s.emit v).rb = s.rb := rfl
@[simp] theorem State.emit_eng (s : State) (v : Word) : (s.emit v).eng = s.eng := rfl
@[simp] theorem State.emit_fcause (s : State) (v : Word) : (s.emit v).fcause = s.fcause := rfl
@[simp] theorem State.emit_finfo (s : State) (v : Word) : (s.emit v).finfo = s.finfo := rfl
@[simp] theorem State.emit_inq (s : State) (v : Word) : (s.emit v).inq = s.inq := rfl
@[simp] theorem State.emit_outq (s : State) (v : Word) : (s.emit v).outq = s.outq ++ [v] := rfl
@[simp] theorem State.emit_lastAddr (s : State) (v : Word) : (s.emit v).lastAddr = s.lastAddr := rfl
@[simp] theorem State.emit_memWords (s : State) (v : Word) : (s.emit v).memWords = s.memWords := rfl

/-! ### `setInput` -/

@[simp] theorem State.setInput_mem (s : State) (q : List Word) : (s.setInput q).mem = s.mem := rfl
@[simp] theorem State.setInput_len (s : State) (q : List Word) : (s.setInput q).len = s.len := rfl
@[simp] theorem State.setInput_orig (s : State) (q : List Word) : (s.setInput q).orig = s.orig := rfl
@[simp] theorem State.setInput_pc (s : State) (q : List Word) : (s.setInput q).pc = s.pc := rfl
@[simp] theorem State.setInput_rb (s : State) (q : List Word) : (s.setInput q).rb = s.rb := rfl
@[simp] theorem State.setInput_eng (s : State) (q : List Word) : (s.setInput q).eng = s.eng := rfl
@[simp] theorem State.setInput_fcause (s : State) (q : List Word) : (s.setInput q).fcause = s.fcause := rfl
@[simp] theorem State.setInput_finfo (s : State) (q : List Word) : (s.setInput q).finfo = s.finfo := rfl
@[simp] theorem State.setInput_inq (s : State) (q : List Word) : (s.setInput q).inq = q := rfl
@[simp] theorem State.setInput_outq (s : State) (q : List Word) : (s.setInput q).outq = s.outq := rfl
@[simp] theorem State.setInput_lastAddr (s : State) (q : List Word) : (s.setInput q).lastAddr = s.lastAddr := rfl
@[simp] theorem State.setInput_memWords (s : State) (q : List Word) : (s.setInput q).memWords = s.memWords := rfl

/-! ### `raise` -/

@[simp] theorem State.raise_mem (s : State) (c : FCause) (x : Int) : (s.raise c x).mem = s.mem := rfl
@[simp] theorem State.raise_len (s : State) (c : FCause) (x : Int) : (s.raise c x).len = s.len := rfl
@[simp] theorem State.raise_orig (s : State) (c : FCause) (x : Int) : (s.raise c x).orig = s.orig := rfl
@[simp] theorem State.raise_pc (s : State) (c : FCause) (x : Int) : (s.raise c x).pc = s.pc := rfl
@[simp] theorem State.raise_rb (s : State) (c : FCause) (x : Int) : (s.raise c x).rb = s.rb := rfl
@[simp] theorem State.raise_eng (s : State) (c : FCause) (x : Int) : (s.raise c x).eng = .faulted := rfl
@[simp] theorem State.raise_fcause (s : State) (c : FCause) (x : Int) : (s.raise c x).fcause = c := rfl
@[simp] theorem State.raise_finfo (s : State) (c : FCause) (x : Int) : (s.raise c x).finfo = x := rfl
@[simp] theorem State.raise_inq (s : State) (c : FCause) (x : Int) : (s.raise c x).inq = s.inq := rfl
@[simp] theorem State.raise_outq (s : State) (c : FCause) (x : Int) : (s.raise c x).outq = s.outq := rfl
@[simp] theorem State.raise_lastAddr (s : State) (c : FCause) (x : Int) : (s.raise c x).lastAddr = s.lastAddr := rfl
@[simp] theorem State.raise_memWords (s : State) (c : FCause) (x : Int) : (s.raise c x).memWords = s.memWords := rfl

/-! ### `withLen` -/

@[simp] theorem State.withLen_mem (s : State) (n : Nat) : (s.withLen n).mem = s.mem := rfl
@[simp] theorem State.withLen_len (s : State) (n : Nat) : (s.withLen n).len = n := rfl
@[simp] theorem State.withLen_orig (s : State) (n : Nat) : (s.withLen n).orig = s.orig := rfl
@[simp] theorem State.withLen_pc (s : State) (n : Nat) : (s.withLen n).pc = s.pc := rfl
@[simp] theorem State.withLen_rb (s : State) (n : Nat) : (s.withLen n).rb = s.rb := rfl
@[simp] theorem State.withLen_eng (s : State) (n : Nat) : (s.withLen n).eng = s.eng := rfl
@[simp] theorem State.withLen_fcause (s : State) (n : Nat) : (s.withLen n).fcause = s.fcause := rfl
@[simp] theorem State.withLen_finfo (s : State) (n : Nat) : (s.withLen n).finfo = s.finfo := rfl
@[simp] theorem State.withLen_inq (s : State) (n : Nat) : (s.withLen n).inq = s.inq := rfl
@[simp] theorem State.withLen_outq (s : State) (n : Nat) : (s.withLen n).outq = s.outq := rfl
@[simp] theorem State.withLen_lastAddr (s : State) (n : Nat) : (s.withLen n).lastAddr = s.lastAddr := rfl
@[simp] theorem State.withLen_memWords (s : State) (n : Nat) : (s.withLen n).memWords = s.memWords := rfl

/-! ### What operands read, under a change of `len` alone -/

@[simp] theorem paramLoc_withLen (k : Nat) (s : State) (n : Nat) : paramLoc k (s.withLen n) = paramLoc k s := rfl
@[simp] theorem paramWord_withLen (k : Nat) (s : State) (n : Nat) : paramWord k (s.withLen n) = paramWord k s := rfl
@[simp] theorem operandAddr_withLen (k : Nat) (m : Mode) (s : State) (n : Nat) :
    operandAddr k m (s.withLen n) = operandAddr k m s := rfl
@[simp] theorem operandWord_withLen (k : Nat) (m : Mode) (s : State) (n : Nat) :
    operandWord k m (s.withLen n) = operandWord k m s := rfl
@[simp] theorem touched_withLen (k : Nat) (m : Mode) (s : State) (n : Nat) :
    touched k m (s.withLen n) = touched k m s := rfl
@[simp] theorem addrFault_withLen (s : State) (n : Nat) (a : Int) : addrFault (s.withLen n) a = addrFault s a := rfl
@[simp] theorem paramFault_withLen (k : Nat) (m : Mode) (s : State) (n : Nat) :
    paramFault k m (s.withLen n) = paramFault k m s := rfl
@[simp] theorem paramFault_setInput (k : Nat) (m : Mode) (s : State) (q : List Word) :
    paramFault k m (s.setInput q) = paramFault k m s := rfl
@[simp] theorem operandAddr_setInput (k : Nat) (m : Mode) (s : State) (q : List Word) :
    operandAddr k m (s.setInput q) = operandAddr k m s := rfl
@[simp] theorem touched_setInput (k : Nat) (m : Mode) (s : State) (q : List Word) :
    touched k m (s.setInput q) = touched k m s := rfl

/-! ### Whole-state forms -/

@[simp] theorem State.withLen_grow (s : State) (n a : Nat) : (s.withLen n).grow a = s.withLen (max n (a + 1)) := rfl
@[simp] theorem State.withLen_raise (s : State) (n : Nat) (c : FCause) (x : Int) :
    (s.withLen n).raise c x = (s.raise c x).withLen n := rfl

/-- `State.reset` is the state of R210 for the empty sequence of words (log entry 2). -/
theorem State.reset_eq_loaded : State.reset = State.loaded [] Config.resetLastAddr := rfl

end Sys2Proof.Machine
end

