-- ==== Sys2Proof/Laws/Word.lean ====
section
/-! SUPPORT. Words and the exact integers they hold. -/

namespace Sys2Proof.Machine

/-- Every word's value lies in the range of `i64`. -/
theorem inI64_toInt (w : Word) : InI64 w.toInt := by
  have h1 := BitVec.le_toInt w
  have h2 := BitVec.toInt_lt (x := w)
  constructor <;> omega

/-- Narrowing a value of the range loses nothing. -/
theorem toInt_ofInt_of_inI64 {r : Int} (h : InI64 r) : (Word.ofInt r).toInt = r := by
  obtain ⟨h1, h2⟩ := h
  rw [Word.ofInt, BitVec.toInt_ofInt]
  exact Int.bmod_eq_of_le (by omega) (by omega)

/-- A word that is not negative has the same value as a natural number. -/
theorem toNat_eq_toInt_of_nonneg {w : Word} (h : 0 ≤ w.toInt) : (w.toNat : Int) = w.toInt := by
  have hw := w.isLt
  rw [BitVec.toInt_eq_toNat_cond] at h ⊢
  split at h <;> split <;> omega

@[simp] theorem toInt_truthWord (b : Bool) : (truthWord b).toInt = if b then 1 else 0 := by
  cases b <;> decide

/-- A small natural number as a word keeps its value. -/
theorem toInt_ofNat_of_lt {n : Nat} (h : n < 2 ^ 63) : (BitVec.ofNat 64 n).toInt = n := by
  rw [BitVec.toInt_eq_toNat_cond, BitVec.toNat_ofNat]
  have : n % 2 ^ 64 = n := Nat.mod_eq_of_lt (by omega)
  rw [this]
  split <;> omega

end Sys2Proof.Machine
end

