-- ==== Sys2Proof/Laws/Access.lean ====
section
/-! SUPPORT. One specification per shared operation: what an access, an operand read, an operand write and the range
check can do. Callers cite these and never unfold the operation. -/

namespace Sys2Proof.Machine

/-! ### Sequencing -/

@[simp] theorem Access.ok_bind {α β : Type} (v : α) (s : State) (f : α → State → Access β) :
    (Access.ok v s).bind f = f v s := rfl

@[simp] theorem Access.raised_bind {α β : Type} (s : State) (f : α → State → Access β) :
    (Access.raised s : Access α).bind f = .raised s := rfl

@[simp] theorem Access.outcome_ok (s : State) : (Access.ok () s).outcome = .next s := rfl

@[simp] theorem Access.outcome_raised (s : State) : (Access.raised s : Access Unit).outcome = .next s := rfl

/-! ### Fault entry -/

/-- A raise enters its fault (60_exceptions.md R196). -/
theorem faultEntered_raise (s : State) (c : FCause) (x : Int) : FaultEntered c x s (s.raise c x) :=
  ⟨rfl, Nat.le_refl _, Nat.le_max_left _ _⟩

/-- A raise after accesses that have grown `len` enters its fault. -/
theorem faultEntered_raise_withLen (s : State) (c : FCause) (x : Int) {n : Nat} (h : s.len ≤ n)
    (hm : n ≤ max s.len s.memWords) : FaultEntered c x s ((s.withLen n).raise c x) :=
  ⟨rfl, h, hm⟩

/-- Growth before a fault is part of that fault's entry. -/
theorem FaultEntered.of_withLen {s t : State} {c : FCause} {x : Int} {n : Nat} (hn : s.len ≤ n)
    (hm : n ≤ max s.len s.memWords) (h : FaultEntered c x (s.withLen n) t) : FaultEntered c x s t :=
  ⟨h.1, hn.trans h.2.1, h.2.2.trans (Nat.max_le.mpr ⟨hm, Nat.le_max_right _ _⟩)⟩

/-! ### The length after accesses -/

theorem len_le_lenAfter (as : List Int) (n : Nat) : n ≤ lenAfter as n := by
  induction as generalizing n with
  | nil => exact Nat.le_refl n
  | cons a as ih => exact (Nat.le_max_left n (a.toNat + 1)).trans (ih _)

theorem lenAfter_append (as bs : List Int) (n : Nat) : lenAfter (as ++ bs) n = lenAfter bs (lenAfter as n) := by
  simp [lenAfter]

theorem lenAfter_nil (n : Nat) : lenAfter [] n = n := rfl

theorem lenAfter_touched (k : Nat) (m : Mode) (s : State) (n : Nat) :
    lenAfter (touched k m s) n = max (max n ((paramLoc k s).toNat + 1)) ((operandAddr k m s).toNat + 1) := rfl

/-- Every touched address lies below the length afterwards. -/
theorem lt_lenAfter {as : List Int} {a : Int} (h : a ∈ as) (n : Nat) : a.toNat < lenAfter as n := by
  induction as generalizing n with
  | nil => cases h
  | cons b as ih =>
    rcases List.mem_cons.mp h with rfl | h
    · exact Nat.lt_of_lt_of_le (by simp) (len_le_lenAfter as _)
    · exact ih h _

/-- Legal accesses keep `len` within the machine's memory. -/
theorem lenAfter_le {as : List Int} {s : State} (h : ∀ a ∈ as, s.Legal a) {n : Nat} (hn : n ≤ s.memWords) :
    lenAfter as n ≤ s.memWords := by
  induction as generalizing n with
  | nil => exact hn
  | cons a as ih =>
    refine ih (fun b hb => h b (by simp [hb])) (Nat.max_le.mpr ⟨hn, ?_⟩)
    have := h a (by simp)
    omega

/-- Legal accesses grow `len` within the machine's memory. -/
theorem lenAfter_le_max {as : List Int} {s : State} (h : ∀ a ∈ as, s.Legal a) (n : Nat) :
    lenAfter as n ≤ max n s.memWords := by
  induction as generalizing n with
  | nil => exact Nat.le_max_left _ _
  | cons a as ih =>
    have h1 : max n (a.toNat + 1) ≤ max n s.memWords := by have := h a (by simp); omega
    exact (ih (fun b hb => h b (by simp [hb])) _).trans (Nat.max_le.mpr ⟨h1, Nat.le_max_right _ _⟩)

/-- Every address an accessible parameter touches is legal. -/
theorem legal_of_touched {k : Nat} {m : Mode} {s : State} (h : Accessible k m s) : ∀ a ∈ touched k m s, s.Legal a := by
  intro a ha
  rcases List.mem_cons.mp ha with rfl | ha
  · exact h.1
  · exact List.mem_singleton.mp ha ▸ h.2

/-- A legal access grows `len` within the machine's memory. -/
theorem grown_le_max {s : State} {a : Int} (h : s.Legal a) : max s.len (a.toNat + 1) ≤ max s.len s.memWords := by
  have := h.2
  omega

/-! ### The address check -/

theorem addrFault_eq_none {s : State} {a : Int} : addrFault s a = none ↔ s.Legal a := by
  unfold addrFault State.Legal
  split
  · simp; omega
  · split
    · simp; omega
    · simp; omega

theorem checkAddr_legal {s : State} {a : Int} (h : s.Legal a) : checkAddr a s = .ok a.toNat s := by
  unfold checkAddr
  rw [if_neg (by have := h.1; omega), if_neg (by have := h.2; omega)]

theorem checkAddr_fault {s : State} {a : Int} {c : FCause} {x : Int} (h : addrFault s a = some (c, x)) :
    checkAddr a s = .raised (s.raise c x) := by
  unfold addrFault at h
  unfold checkAddr
  split at h
  · next ha => simp only [Option.some.injEq, Prod.mk.injEq] at h; rw [if_pos ha, ← h.1, ← h.2]
  · next ha =>
    rw [if_neg ha]
    split at h
    · next hb => simp only [Option.some.injEq, Prod.mk.injEq] at h; rw [if_pos hb, ← h.1, ← h.2]
    · cases h

/-! ### Reading and writing one word -/

theorem memRead_legal {s : State} {a : Int} (h : s.Legal a) :
    memRead a s = .ok (s.mem.read a.toNat) (s.withLen (max s.len (a.toNat + 1))) := by
  rw [memRead, checkAddr_legal h]; rfl

theorem memRead_fault {s : State} {a : Int} {c : FCause} {x : Int} (h : addrFault s a = some (c, x)) :
    memRead a s = .raised (s.raise c x) := by
  rw [memRead, checkAddr_fault h]; rfl

theorem memWrite_legal {s : State} {a : Int} (h : s.Legal a) (v : Word) :
    memWrite a v s = .ok () ((s.withLen (max s.len (a.toNat + 1))).store a.toNat v) := by
  rw [memWrite, checkAddr_legal h]; rfl

theorem memWrite_fault {s : State} {a : Int} {c : FCause} {x : Int} (h : addrFault s a = some (c, x)) (v : Word) :
    memWrite a v s = .raised (s.raise c x) := by
  rw [memWrite, checkAddr_fault h]; rfl

/-! ### Operands -/

theorem paramFault_eq_none {k : Nat} {m : Mode} {s : State} : paramFault k m s = none ↔ Accessible k m s := by
  rw [paramFault, Option.or_eq_none_iff, addrFault_eq_none, addrFault_eq_none]

/-- An accessible source is read, and only `len` changes (20_memory.md R47). -/
theorem readOperand_accessible {k : Nat} {m : Mode} {s : State} (h : Accessible k m s) :
    readOperand k m s = .ok (operandWord k m s) (s.withLen (lenAfter (touched k m s) s.len)) := by
  obtain ⟨h1, h2⟩ := h
  rw [readOperand, memRead_legal h1]
  cases m with
  | position => exact memRead_legal (s := s.withLen _) h2
  | relative => exact memRead_legal (s := s.withLen _) h2
  | immediate =>
    simp only [Access.ok_bind, lenAfter_touched, operandAddr, designated, operandWord]
    rw [Nat.max_assoc, Nat.max_self]

/-- A second operand is read where the first left `len`. -/
theorem readOperand_withLen {k : Nat} {m : Mode} {s : State} (h : Accessible k m s) (n : Nat) :
    readOperand k m (s.withLen n) = .ok (operandWord k m s) (s.withLen (lenAfter (touched k m s) n)) :=
  readOperand_accessible (s := s.withLen n) h

/-- A source that is not accessible raises the first of its two checks' faults (20_memory.md R47, 60_exceptions.md R197). -/
theorem readOperand_fault {k : Nat} {m : Mode} {s : State} {c : FCause} {x : Int}
    (h : paramFault k m s = some (c, x)) : ∃ t, readOperand k m s = .raised t ∧ FaultEntered c x s t := by
  rw [readOperand]
  cases h1 : addrFault s (paramLoc k s) with
  | some f =>
    have hf : f = (c, x) := by simpa [paramFault, h1] using h
    subst hf
    rw [memRead_fault h1]
    exact ⟨_, rfl, faultEntered_raise s c x⟩
  | none =>
    have h2 : addrFault s (operandAddr k m s) = some (c, x) := by simpa [paramFault, h1] using h
    rw [memRead_legal (addrFault_eq_none.mp h1)]
    cases m with
    | immediate => exact absurd h2 (by simp [operandAddr, designated, h1])
    | position =>
      exact ⟨_, memRead_fault (s := s.withLen _) h2, faultEntered_raise_withLen s c x (Nat.le_max_left _ _)
        (grown_le_max (addrFault_eq_none.mp h1))⟩
    | relative =>
      exact ⟨_, memRead_fault (s := s.withLen _) h2, faultEntered_raise_withLen s c x (Nat.le_max_left _ _)
        (grown_le_max (addrFault_eq_none.mp h1))⟩

/-- An accessible destination is stored to (20_memory.md R48). -/
theorem writeOperand_accessible {k : Nat} {m : Mode} {s : State} (h : Accessible k m s) (v : Word) :
    writeOperand k m v s =
      .ok () ((s.withLen (lenAfter (touched k m s) s.len)).store (operandAddr k m s).toNat v) := by
  rw [writeOperand, memRead_legal h.1]
  exact memWrite_legal (s := s.withLen (max s.len ((paramLoc k s).toNat + 1))) h.2 v

/-- A destination is written where the sources left `len`. -/
theorem writeOperand_withLen {k : Nat} {m : Mode} {s : State} (h : Accessible k m s) (n : Nat) (v : Word) :
    writeOperand k m v (s.withLen n) =
      .ok () ((s.withLen (lenAfter (touched k m s) n)).store (operandAddr k m s).toNat v) :=
  writeOperand_accessible (s := s.withLen n) h v

/-- A destination that is not accessible raises, and nothing is stored (20_memory.md R48). -/
theorem writeOperand_fault {k : Nat} {m : Mode} {s : State} {c : FCause} {x : Int}
    (h : paramFault k m s = some (c, x)) (v : Word) :
    ∃ t, writeOperand k m v s = .raised t ∧ FaultEntered c x s t := by
  rw [writeOperand]
  cases h1 : addrFault s (paramLoc k s) with
  | some f =>
    have hf : f = (c, x) := by simpa [paramFault, h1] using h
    subst hf
    rw [memRead_fault h1]
    exact ⟨_, rfl, faultEntered_raise s c x⟩
  | none =>
    have h2 : addrFault s (operandAddr k m s) = some (c, x) := by simpa [paramFault, h1] using h
    rw [memRead_legal (addrFault_eq_none.mp h1)]
    exact ⟨_, memWrite_fault (s := s.withLen (max s.len ((paramLoc k s).toNat + 1))) h2 v,
      faultEntered_raise_withLen s c x (Nat.le_max_left _ _)
        (grown_le_max (addrFault_eq_none.mp h1))⟩

/-! ### The range check -/

theorem narrow_inRange {r : Int} (h : InI64 r) (s : State) : narrow r s = .ok (Word.ofInt r) s := if_pos h

theorem narrow_overflow {r : Int} (h : ¬ InI64 r) (s : State) : narrow r s = .raised (s.raise .overflow r) := if_neg h

theorem rangeFault_eq_none {r : Int} : rangeFault r = none ↔ InI64 r := by
  unfold rangeFault
  split
  · next h => exact ⟨fun _ => h, fun _ => rfl⟩
  · next h => exact ⟨fun hn => (by cases hn), fun hr => absurd hr h⟩

/-! ### Advancing -/

/-- Where the last parameter word of an instruction is an address, `pc` advances with no overflow (10_state.md R22). -/
theorem toInt_advance {s : State} {k : Nat} (h : s.Legal (paramLoc k s)) {n : Nat} (hn : n ≤ k + 1) :
    (s.advance n).pc.toInt = s.pc.toInt + n := by
  have hw := inI64_toInt s.pc
  have hm : s.memWords ≤ 2 ^ 62 := s.lastAddr.isLt
  unfold State.Legal paramLoc at h
  rw [State.advance_pc]
  exact toInt_ofInt_of_inI64 ⟨by have := hw.1; omega, by omega⟩

end Sys2Proof.Machine
end

