-- ==== Sys2Proof/Laws/Decode.lean ====
section
/-! SUPPORT. The decoder: what it answers, said once by decimal digits. -/

namespace Sys2Proof

/-- A mode digit and its mode determine each other. -/
theorem Mode.ofDigit_eq_some {n : Nat} {m : Mode} : Mode.ofDigit n = some m ↔ n = m.digit := by
  constructor
  · intro h
    unfold Mode.ofDigit at h
    split at h <;> first | (cases h; done) | (cases h; rfl)
  · rintro rfl
    cases m <;> rfl

/-- A digit above 2 is no mode. -/
theorem Mode.ofDigit_eq_none {n : Nat} : Mode.ofDigit n = none ↔ 2 < n := by
  match n with
  | 0 | 1 | 2 => simp [Mode.ofDigit]
  | n + 3 => simp [Mode.ofDigit]

theorem Mode.digit_le (m : Mode) : m.digit ≤ 2 := by cases m <;> decide

/-- The opcode map names an instruction exactly for the ten opcodes, and that instruction has this opcode and the modes
it is given. -/
theorem Instr.ofOpcode_spec {n : Nat} {mk : Mode → Mode → Mode → Instr} (h : Instr.ofOpcode n = some mk)
    (m1 m2 m3 : Mode) : (mk m1 m2 m3).opcode = n ∧ (mk m1 m2 m3).modes = (m1, m2, m3) := by
  unfold Instr.ofOpcode at h
  split at h <;> first | (cases h; done) | (cases h; exact ⟨rfl, rfl⟩)

theorem Instr.ofOpcode_eq_none {n : Nat} : Instr.ofOpcode n = none ↔ n ∉ legalOpcodes := by
  unfold Instr.ofOpcode legalOpcodes
  split <;> simp_all

/-- An instruction is what the opcode map names for its opcode, with its modes. -/
theorem Instr.ofOpcode_opcode (i : Instr) :
    ∃ mk, Instr.ofOpcode i.opcode = some mk ∧ mk i.modes.1 i.modes.2.1 i.modes.2.2 = i := by
  cases i <;> exact ⟨_, rfl, rfl⟩

theorem Instr.opcode_lt (i : Instr) : 1 ≤ i.opcode ∧ i.opcode ≤ 99 := by
  cases i <;> exact ⟨by simp [Instr.opcode], by simp [Instr.opcode]⟩

/-- What it takes for a word to decode to an instruction: not negative, below 100000, its opcode in its low two digits
and its modes in the next three (30_encoding.md R62). -/
theorem decode_eq_instr {w : Word} {i : Instr} :
    decode w = .instr i ↔ 0 ≤ w.toInt ∧ w.toNat < 100000 ∧ w.toNat % 100 = i.opcode ∧
      digitOf w.toNat 2 = i.modes.1.digit ∧ digitOf w.toNat 3 = i.modes.2.1.digit ∧
      digitOf w.toNat 4 = i.modes.2.2.digit := by
  constructor
  · intro h
    unfold decode at h
    split at h
    · cases h
    · next hn =>
      split at h
      · cases h
      · next mk hmk =>
        split at h
        · cases h
        · next hlt =>
          split at h
          · next m1 m2 m3 h2 h3 h4 =>
            cases h
            obtain ⟨ho, hm⟩ := Instr.ofOpcode_spec hmk m1 m2 m3
            rw [hm, ho]
            exact ⟨by omega, by omega, rfl, Mode.ofDigit_eq_some.mp h2, Mode.ofDigit_eq_some.mp h3,
              Mode.ofDigit_eq_some.mp h4⟩
          · cases h
  · rintro ⟨hn, hlt, ho, h2, h3, h4⟩
    obtain ⟨mk, hmk, hi⟩ := Instr.ofOpcode_opcode i
    unfold decode
    rw [if_neg (by omega), ho, hmk]
    simp only [if_neg (show ¬ 100000 ≤ w.toNat by omega), Mode.ofDigit_eq_some.mpr h2, Mode.ofDigit_eq_some.mpr h3,
      Mode.ofDigit_eq_some.mpr h4, hi]

theorem decode_negative {w : Word} (h : w.toInt < 0) : decode w = .unknownOpcode := if_pos h

theorem decode_unknown {w : Word} (h : w.toNat % 100 ∉ legalOpcodes) : decode w = .unknownOpcode := by
  unfold decode
  rw [Instr.ofOpcode_eq_none.mpr h]
  split <;> rfl

theorem decode_tooLarge {w : Word} (hn : 0 ≤ w.toInt) (ho : w.toNat % 100 ∈ legalOpcodes) (h : 100000 ≤ w.toNat) :
    decode w = .invalidMode := by
  unfold decode
  rw [if_neg (by omega)]
  split
  · next hmk => exact absurd ho (Instr.ofOpcode_eq_none.mp hmk)
  · rw [if_pos h]

theorem decode_badMode {w : Word} (hn : 0 ≤ w.toInt) (ho : w.toNat % 100 ∈ legalOpcodes)
    (h : 2 < digitOf w.toNat 2 ∨ 2 < digitOf w.toNat 3 ∨ 2 < digitOf w.toNat 4) : decode w = .invalidMode := by
  unfold decode
  rw [if_neg (by omega)]
  split
  · next hmk => exact absurd ho (Instr.ofOpcode_eq_none.mp hmk)
  · split
    · rfl
    · split
      · next m1 m2 m3 h2 h3 h4 =>
        have h2 := Mode.ofDigit_eq_some.mp h2
        have h3 := Mode.ofDigit_eq_some.mp h3
        have h4 := Mode.ofDigit_eq_some.mp h4
        have := m1.digit_le
        have := m2.digit_le
        have := m3.digit_le
        omega
      · rfl

/-- The instruction word's value is a small natural number. -/
theorem Instr.value_bounds (i : Instr) : 1 ≤ i.value ∧ i.value ≤ 22299 := by
  have h := i.opcode_lt
  have h1 := i.modes.1.digit_le
  have h2 := i.modes.2.1.digit_le
  have h3 := i.modes.2.2.digit_le
  unfold Instr.value
  omega

theorem toNat_encode (i : Instr) : (encode i).toNat = i.value := by
  have := i.value_bounds
  rw [encode, BitVec.toNat_ofNat]
  omega

theorem toInt_encode (i : Instr) : (encode i).toInt = i.value :=
  Machine.toInt_ofNat_of_lt (by have := i.value_bounds; omega)

end Sys2Proof
end

