-- ==== Sys2Proof/Laws/Exec.lean ====
section
/-! SUPPORT. What one instruction can do, said once: either its first fault is entered, or its effect happens. Later
proofs cite `exec_cases` and the fields of `effect`, and never unfold a meaning. -/

namespace Sys2Proof.Machine

/-! ### The effect of each instruction, as an update of the state -/

/-- The four ALU instructions: a result stored where parameter 3 designates, and an advance by 4. -/
def aluEffect (m1 m2 m3 : Mode) (r : Word) (s : State) : State :=
  ((s.withLen (lenAfter (touched 1 m1 s ++ touched 2 m2 s ++ touched 3 m3 s) s.len)).store
    (operandAddr 3 m3 s).toNat r).advance 4

/-- The two jumps. -/
def jumpEffect (taken : Int → Bool) (m1 m2 : Mode) (s : State) : State :=
  let u := s.withLen (lenAfter (touched 1 m1 s ++ touched 2 m2 s) s.len)
  if taken (operandWord 1 m1 s).toInt then u.goto (operandWord 2 m2 s) else u.advance 3

/-- An Input that finds `v` at the front and leaves `rest`. -/
def popEffect (m1 : Mode) (v : Word) (rest : List Word) (s : State) : State :=
  (((s.setInput rest).withLen (lenAfter (touched 1 m1 s) s.len)).store (operandAddr 1 m1 s).toNat v).advance 2

/-- An Output. -/
def outEffect (m1 : Mode) (s : State) : State :=
  ((s.withLen (lenAfter (touched 1 m1 s) s.len)).emit (operandWord 1 m1 s)).advance 2

/-- A RelativeBaseOffset. -/
def arbEffect (m1 : Mode) (s : State) : State :=
  ((s.withLen (lenAfter (touched 1 m1 s) s.len)).setBase (Word.ofInt (s.rb.toInt + (operandWord 1 m1 s).toInt))).advance 2

/-- The state an instruction leaves when none of its checks raises. -/
def effect (i : Instr) (s : State) : State :=
  let v := fun k m => (operandWord k m s).toInt
  match i with
  | .add m1 m2 m3 => aluEffect m1 m2 m3 (Word.ofInt (v 1 m1 + v 2 m2)) s
  | .mul m1 m2 m3 => aluEffect m1 m2 m3 (Word.ofInt (v 1 m1 * v 2 m2)) s
  | .lt m1 m2 m3 => aluEffect m1 m2 m3 (truthWord (decide (v 1 m1 < v 2 m2))) s
  | .eq m1 m2 m3 => aluEffect m1 m2 m3 (truthWord (decide (v 1 m1 = v 2 m2))) s
  | .jt m1 m2 _ => jumpEffect (fun c => decide (c ≠ 0)) m1 m2 s
  | .jf m1 m2 _ => jumpEffect (fun c => decide (c = 0)) m1 m2 s
  | .inp m1 _ _ =>
    match s.inq with
    | [] => s.setEng .suspended
    | w :: rest => popEffect m1 w rest s
  | .out m1 _ _ => outEffect m1 s
  | .arb m1 _ _ => arbEffect m1 s
  | .hlt _ _ _ => s.setEng .halted

/-! ### The shared shapes -/

/-- What an access that raised tells of a whole instruction. -/
def Faults (a : Access Unit) (c : FCause) (x : Int) (s : State) : Prop := ∃ t, a = .raised t ∧ FaultEntered c x s t

theorem Faults.outcome {a : Access Unit} {c : FCause} {x : Int} {s : State} (h : Faults a c x s) :
    ∃ t, a.outcome = .next t ∧ FaultEntered c x s t := by
  obtain ⟨t, rfl, ht⟩ := h
  exact ⟨t, rfl, ht⟩

/-- A first source that faults ends the instruction. -/
theorem faults_of_source {k : Nat} {m : Mode} {s : State} {c : FCause} {x : Int} (h : paramFault k m s = some (c, x))
    (f : Word → State → Access Unit) : Faults ((readOperand k m s).bind f) c x s := by
  obtain ⟨t, ht, hf⟩ := readOperand_fault h
  exact ⟨t, by rw [ht]; rfl, hf⟩

/-- What follows an accessible source. -/
theorem faults_after_source {k : Nat} {m : Mode} {s : State} {c : FCause} {x : Int} (h : Accessible k m s)
    {f : Word → State → Access Unit}
    (hf : Faults (f (operandWord k m s) (s.withLen (lenAfter (touched k m s) s.len))) c x
      (s.withLen (lenAfter (touched k m s) s.len))) : Faults ((readOperand k m s).bind f) c x s := by
  obtain ⟨t, ht, he⟩ := hf
  exact ⟨t, by rw [readOperand_accessible h]; exact ht, he.of_withLen (len_le_lenAfter _ _)
    (lenAfter_le_max (legal_of_touched h) _)⟩

/-- What follows a second accessible source, read where the first left `len`. -/
theorem faults_after_second {k : Nat} {m : Mode} {s : State} {n : Nat} {c : FCause} {x : Int} (h : Accessible k m s)
    {f : Word → State → Access Unit}
    (hf : Faults (f (operandWord k m s) (s.withLen (lenAfter (touched k m s) n))) c x
      (s.withLen (lenAfter (touched k m s) n))) : Faults ((readOperand k m (s.withLen n)).bind f) c x (s.withLen n) :=
  faults_after_source (s := s.withLen n) h hf

/-- A destination that faults ends the instruction. -/
theorem faults_of_destination {k : Nat} {m : Mode} {s : State} {c : FCause} {x : Int}
    (h : paramFault k m s = some (c, x)) (v : Word) (f : Unit → State → Access Unit) :
    Faults ((writeOperand k m v s).bind f) c x s := by
  obtain ⟨t, ht, hf⟩ := writeOperand_fault h v
  exact ⟨t, by rw [ht]; rfl, hf⟩

theorem arith_noFault {f : Int → Int → Int} {m1 m2 m3 : Mode} {s : State} (h1 : Accessible 1 m1 s)
    (h2 : Accessible 2 m2 s) (h3 : Accessible 3 m3 s)
    (hr : InI64 (f (operandWord 1 m1 s).toInt (operandWord 2 m2 s).toInt)) :
    arith f m1 m2 m3 s =
      .ok () (aluEffect m1 m2 m3 (Word.ofInt (f (operandWord 1 m1 s).toInt (operandWord 2 m2 s).toInt)) s) := by
  rw [arith, readOperand_accessible h1, Access.ok_bind, readOperand_withLen h2, Access.ok_bind]
  simp only [narrow_inRange hr,
    Access.ok_bind]
  rw [writeOperand_withLen h3, Access.ok_bind, ← lenAfter_append, ← lenAfter_append]
  rfl

theorem compare_noFault {p : Int → Int → Bool} {m1 m2 m3 : Mode} {s : State} (h1 : Accessible 1 m1 s)
    (h2 : Accessible 2 m2 s) (h3 : Accessible 3 m3 s) :
    compare p m1 m2 m3 s =
      .ok () (aluEffect m1 m2 m3 (truthWord (p (operandWord 1 m1 s).toInt (operandWord 2 m2 s).toInt)) s) := by
  rw [compare, readOperand_accessible h1, Access.ok_bind, readOperand_withLen h2, Access.ok_bind,
    writeOperand_withLen h3, Access.ok_bind, ← lenAfter_append, ← lenAfter_append]
  rfl

theorem arith_faults {f : Int → Int → Int} {m1 m2 m3 : Mode} {s : State} {c : FCause} {x : Int}
    (h : ((paramFault 1 m1 s).or (paramFault 2 m2 s)).or
      ((rangeFault (f (operandWord 1 m1 s).toInt (operandWord 2 m2 s).toInt)).or (paramFault 3 m3 s)) = some (c, x)) :
    Faults (arith f m1 m2 m3 s) c x s := by
  cases h1 : paramFault 1 m1 s with
  | some g => exact faults_of_source (by simpa [h1] using h) _
  | none =>
    refine faults_after_source (paramFault_eq_none.mp h1) ?_
    cases h2 : paramFault 2 m2 s with
    | some g => exact faults_of_source (by simpa [h1, h2] using h) _
    | none =>
      refine faults_after_second (paramFault_eq_none.mp h2) ?_
      by_cases hr : InI64 (f (operandWord 1 m1 s).toInt (operandWord 2 m2 s).toInt)
      · rw [narrow_inRange hr]
        exact faults_of_destination (by simpa only [h1, h2, rangeFault_eq_none.mpr hr, Option.none_or, paramFault_withLen] using h) _ _
      · have hx : (FCause.overflow, f (operandWord 1 m1 s).toInt (operandWord 2 m2 s).toInt) = (c, x) := by
          simpa only [h1, h2, rangeFault, if_neg hr, Option.none_or, Option.some_or, Option.some.injEq] using h
        rw [narrow_overflow hr]
        cases hx
        exact ⟨_, rfl, faultEntered_raise _ _ _⟩

theorem compare_faults {p : Int → Int → Bool} {m1 m2 m3 : Mode} {s : State} {c : FCause} {x : Int}
    (h : ((paramFault 1 m1 s).or (paramFault 2 m2 s)).or (paramFault 3 m3 s) = some (c, x)) :
    Faults (compare p m1 m2 m3 s) c x s := by
  cases h1 : paramFault 1 m1 s with
  | some g => exact faults_of_source (by simpa [h1] using h) _
  | none =>
    refine faults_after_source (paramFault_eq_none.mp h1) ?_
    cases h2 : paramFault 2 m2 s with
    | some g => exact faults_of_source (by simpa [h1, h2] using h) _
    | none =>
      refine faults_after_second (paramFault_eq_none.mp h2) ?_
      exact faults_of_destination (by simpa [h1, h2] using h) _ _

theorem jump_noFault {taken : Int → Bool} {m1 m2 : Mode} {s : State} (h1 : Accessible 1 m1 s) (h2 : Accessible 2 m2 s)
    (ht : ¬ (taken (operandWord 1 m1 s).toInt = true ∧ (operandWord 2 m2 s).toInt < 0)) :
    jump taken m1 m2 s = .ok () (jumpEffect taken m1 m2 s) := by
  rw [jump, readOperand_accessible h1, Access.ok_bind, readOperand_withLen h2, Access.ok_bind, jumpEffect,
    ← lenAfter_append]
  by_cases hc : taken (operandWord 1 m1 s).toInt = true
  · rw [if_pos hc, if_pos hc, if_neg fun hn => ht ⟨hc, hn⟩]
  · rw [if_neg hc, if_neg hc]

theorem jump_faults {taken : Int → Bool} {m1 m2 : Mode} {s : State} {c : FCause} {x : Int}
    (h : ((paramFault 1 m1 s).or (paramFault 2 m2 s)).or
      (targetFault (taken (operandWord 1 m1 s).toInt = true) (operandWord 2 m2 s).toInt) = some (c, x)) :
    Faults (jump taken m1 m2 s) c x s := by
  cases h1 : paramFault 1 m1 s with
  | some g => exact faults_of_source (by simpa [h1] using h) _
  | none =>
    refine faults_after_source (paramFault_eq_none.mp h1) ?_
    cases h2 : paramFault 2 m2 s with
    | some g => exact faults_of_source (by simpa [h1, h2] using h) _
    | none =>
      refine faults_after_second (paramFault_eq_none.mp h2) ?_
      simp only [h1, h2, Option.none_or, targetFault] at h
      split at h
      · next hc =>
        cases h
        rw [if_pos hc.1, if_pos hc.2]
        exact ⟨_, rfl, faultEntered_raise _ _ _⟩
      · cases h

/-! ### Every instruction -/

theorem targetFault_eq_none {p : Prop} [Decidable p] {t : Int} : targetFault p t = none ↔ ¬ (p ∧ t < 0) := by
  unfold targetFault
  split
  · next h => exact ⟨fun hn => (by cases hn), fun hn => absurd h hn⟩
  · next h => exact ⟨fun _ => h, fun _ => rfl⟩

/-- An instruction none of whose checks raises has its effect. -/
theorem exec_of_noFault {i : Instr} {s : State} (h : firstFault i s = none) : exec i s = .next (effect i s) := by
  cases i with
  | add m1 m2 m3 =>
    simp only [firstFault, Option.or_eq_none_iff, paramFault_eq_none, rangeFault_eq_none] at h
    exact congrArg Access.outcome (arith_noFault h.1.1 h.1.2 h.2.2 h.2.1)
  | mul m1 m2 m3 =>
    simp only [firstFault, Option.or_eq_none_iff, paramFault_eq_none, rangeFault_eq_none] at h
    exact congrArg Access.outcome (arith_noFault (f := fun a b => a * b) h.1.1 h.1.2 h.2.2 h.2.1)
  | lt m1 m2 m3 =>
    simp only [firstFault, Option.or_eq_none_iff, paramFault_eq_none] at h
    exact congrArg Access.outcome (compare_noFault h.1.1 h.1.2 h.2)
  | eq m1 m2 m3 =>
    simp only [firstFault, Option.or_eq_none_iff, paramFault_eq_none] at h
    exact congrArg Access.outcome (compare_noFault h.1.1 h.1.2 h.2)
  | jt m1 m2 m3 =>
    simp only [firstFault, Option.or_eq_none_iff, paramFault_eq_none, targetFault_eq_none] at h
    exact congrArg Access.outcome (jump_noFault h.1.1 h.1.2 (by simpa using h.2))
  | jf m1 m2 m3 =>
    simp only [firstFault, Option.or_eq_none_iff, paramFault_eq_none, targetFault_eq_none] at h
    exact congrArg Access.outcome (jump_noFault h.1.1 h.1.2 (by simpa using h.2))
  | inp m1 m2 m3 =>
    cases hq : s.inq with
    | nil => simp only [exec, execInp, effect, hq]
    | cons v rest =>
      have ha : Accessible 1 m1 (s.setInput rest) := by
        exact paramFault_eq_none.mp (by simpa [firstFault, hq] using h)
      simp only [exec, execInp, effect, hq]
      rw [writeOperand_accessible ha]
      rfl
  | out m1 m2 m3 =>
    have ha : Accessible 1 m1 s := paramFault_eq_none.mp h
    simp only [exec, execOut, readOperand_accessible ha, Access.ok_bind, Access.outcome_ok, effect, outEffect]
  | arb m1 m2 m3 =>
    simp only [firstFault, Option.or_eq_none_iff, paramFault_eq_none, rangeFault_eq_none] at h
    simp only [exec, execArb, readOperand_accessible h.1, Access.ok_bind, State.withLen_rb, narrow_inRange h.2,
      Access.outcome_ok, effect, arbEffect]
  | hlt m1 m2 m3 => rfl

/-- An instruction one of whose checks raises enters the first fault; an Input has popped its value by then. -/
theorem exec_of_fault {i : Instr} {s : State} {c : FCause} {x : Int} (h : firstFault i s = some (c, x)) :
    ∃ t, exec i s = .next t ∧ FaultEntered c x (s.setInput (inputAfterFault i s)) t := by
  cases i with
  | add m1 m2 m3 => exact (arith_faults (f := fun a b => a + b) h).outcome
  | mul m1 m2 m3 => exact (arith_faults (f := fun a b => a * b) h).outcome
  | lt m1 m2 m3 => exact (compare_faults h).outcome
  | eq m1 m2 m3 => exact (compare_faults h).outcome
  | jt m1 m2 m3 => exact (jump_faults (by simpa [firstFault] using h)).outcome
  | jf m1 m2 m3 => exact (jump_faults (by simpa [firstFault] using h)).outcome
  | inp m1 m2 m3 =>
    cases hq : s.inq with
    | nil => simp [firstFault, hq] at h
    | cons v rest =>
      have hp : paramFault 1 m1 (s.setInput rest) = some (c, x) := by simpa [firstFault, hq] using h
      simp only [exec, execInp, hq, inputAfterFault, List.tail_cons]
      exact (faults_of_destination hp _ _).outcome
  | out m1 m2 m3 => exact (faults_of_source h _).outcome
  | arb m1 m2 m3 =>
    refine Faults.outcome ?_
    cases h1 : paramFault 1 m1 s with
    | some g => exact faults_of_source (by simpa [firstFault, h1] using h) _
    | none =>
      refine faults_after_source (paramFault_eq_none.mp h1) ?_
      have hx : rangeFault (s.rb.toInt + (operandWord 1 m1 s).toInt) = some (c, x) := by
        simpa [firstFault, h1] using h
      unfold rangeFault at hx
      split at hx
      · cases hx
      · next hr =>
        cases hx
        rw [State.withLen_rb, narrow_overflow hr]
        exact ⟨_, rfl, faultEntered_raise _ _ _⟩
  | hlt m1 m2 m3 => cases h

/-- Everything an instruction can do. -/
theorem exec_cases {i : Instr} {s t : State} (h : exec i s = .next t) :
    (firstFault i s = none ∧ t = effect i s) ∨
    ∃ c x, firstFault i s = some (c, x) ∧ FaultEntered c x (s.setInput (inputAfterFault i s)) t := by
  cases hf : firstFault i s with
  | none =>
    rw [exec_of_noFault hf] at h
    cases h
    exact .inl ⟨rfl, rfl⟩
  | some f =>
    obtain ⟨u, hu, he⟩ := exec_of_fault hf
    rw [hu] at h
    cases h
    exact .inr ⟨f.1, f.2, rfl, he⟩

/-- Every instruction answers a next state. -/
theorem exec_next (i : Instr) (s : State) : ∃ t, exec i s = .next t := by
  cases hf : firstFault i s with
  | none => exact ⟨_, exec_of_noFault hf⟩
  | some f => exact (exec_of_fault hf).imp fun _ h => h.1

/-! ### The fields of each shape -/

@[simp] theorem aluEffect_mem (m1 m2 m3 : Mode) (r : Word) (s : State) :
    (aluEffect m1 m2 m3 r s).mem = s.mem.write (operandAddr 3 m3 s).toNat r := rfl
@[simp] theorem aluEffect_len (m1 m2 m3 : Mode) (r : Word) (s : State) :
    (aluEffect m1 m2 m3 r s).len = lenAfter (touched 1 m1 s ++ touched 2 m2 s ++ touched 3 m3 s) s.len := rfl
@[simp] theorem aluEffect_orig (m1 m2 m3 : Mode) (r : Word) (s : State) :
    (aluEffect m1 m2 m3 r s).orig = s.orig := rfl
@[simp] theorem aluEffect_pc (m1 m2 m3 : Mode) (r : Word) (s : State) :
    (aluEffect m1 m2 m3 r s).pc = (s.advance 4).pc := rfl
@[simp] theorem aluEffect_rb (m1 m2 m3 : Mode) (r : Word) (s : State) : (aluEffect m1 m2 m3 r s).rb = s.rb := rfl
@[simp] theorem aluEffect_eng (m1 m2 m3 : Mode) (r : Word) (s : State) : (aluEffect m1 m2 m3 r s).eng = s.eng := rfl
@[simp] theorem aluEffect_fcause (m1 m2 m3 : Mode) (r : Word) (s : State) :
    (aluEffect m1 m2 m3 r s).fcause = s.fcause := rfl
@[simp] theorem aluEffect_finfo (m1 m2 m3 : Mode) (r : Word) (s : State) :
    (aluEffect m1 m2 m3 r s).finfo = s.finfo := rfl
@[simp] theorem aluEffect_inq (m1 m2 m3 : Mode) (r : Word) (s : State) : (aluEffect m1 m2 m3 r s).inq = s.inq := rfl
@[simp] theorem aluEffect_outq (m1 m2 m3 : Mode) (r : Word) (s : State) :
    (aluEffect m1 m2 m3 r s).outq = s.outq := rfl
@[simp] theorem aluEffect_lastAddr (m1 m2 m3 : Mode) (r : Word) (s : State) :
    (aluEffect m1 m2 m3 r s).lastAddr = s.lastAddr := rfl

@[simp] theorem popEffect_mem (m1 : Mode) (v : Word) (q : List Word) (s : State) :
    (popEffect m1 v q s).mem = s.mem.write (operandAddr 1 m1 s).toNat v := rfl
@[simp] theorem popEffect_len (m1 : Mode) (v : Word) (q : List Word) (s : State) :
    (popEffect m1 v q s).len = lenAfter (touched 1 m1 s) s.len := rfl
@[simp] theorem popEffect_orig (m1 : Mode) (v : Word) (q : List Word) (s : State) :
    (popEffect m1 v q s).orig = s.orig := rfl
@[simp] theorem popEffect_pc (m1 : Mode) (v : Word) (q : List Word) (s : State) :
    (popEffect m1 v q s).pc = (s.advance 2).pc := rfl
@[simp] theorem popEffect_rb (m1 : Mode) (v : Word) (q : List Word) (s : State) :
    (popEffect m1 v q s).rb = s.rb := rfl
@[simp] theorem popEffect_eng (m1 : Mode) (v : Word) (q : List Word) (s : State) :
    (popEffect m1 v q s).eng = s.eng := rfl
@[simp] theorem popEffect_fcause (m1 : Mode) (v : Word) (q : List Word) (s : State) :
    (popEffect m1 v q s).fcause = s.fcause := rfl
@[simp] theorem popEffect_finfo (m1 : Mode) (v : Word) (q : List Word) (s : State) :
    (popEffect m1 v q s).finfo = s.finfo := rfl
@[simp] theorem popEffect_inq (m1 : Mode) (v : Word) (q : List Word) (s : State) : (popEffect m1 v q s).inq = q := rfl
@[simp] theorem popEffect_outq (m1 : Mode) (v : Word) (q : List Word) (s : State) :
    (popEffect m1 v q s).outq = s.outq := rfl
@[simp] theorem popEffect_lastAddr (m1 : Mode) (v : Word) (q : List Word) (s : State) :
    (popEffect m1 v q s).lastAddr = s.lastAddr := rfl

@[simp] theorem outEffect_mem (m1 : Mode) (s : State) : (outEffect m1 s).mem = s.mem := rfl
@[simp] theorem outEffect_len (m1 : Mode) (s : State) : (outEffect m1 s).len = lenAfter (touched 1 m1 s) s.len := rfl
@[simp] theorem outEffect_orig (m1 : Mode) (s : State) : (outEffect m1 s).orig = s.orig := rfl
@[simp] theorem outEffect_pc (m1 : Mode) (s : State) : (outEffect m1 s).pc = (s.advance 2).pc := rfl
@[simp] theorem outEffect_rb (m1 : Mode) (s : State) : (outEffect m1 s).rb = s.rb := rfl
@[simp] theorem outEffect_eng (m1 : Mode) (s : State) : (outEffect m1 s).eng = s.eng := rfl
@[simp] theorem outEffect_fcause (m1 : Mode) (s : State) : (outEffect m1 s).fcause = s.fcause := rfl
@[simp] theorem outEffect_finfo (m1 : Mode) (s : State) : (outEffect m1 s).finfo = s.finfo := rfl
@[simp] theorem outEffect_inq (m1 : Mode) (s : State) : (outEffect m1 s).inq = s.inq := rfl
@[simp] theorem outEffect_outq (m1 : Mode) (s : State) : (outEffect m1 s).outq = s.outq ++ [operandWord 1 m1 s] := rfl
@[simp] theorem outEffect_lastAddr (m1 : Mode) (s : State) : (outEffect m1 s).lastAddr = s.lastAddr := rfl

@[simp] theorem arbEffect_mem (m1 : Mode) (s : State) : (arbEffect m1 s).mem = s.mem := rfl
@[simp] theorem arbEffect_len (m1 : Mode) (s : State) : (arbEffect m1 s).len = lenAfter (touched 1 m1 s) s.len := rfl
@[simp] theorem arbEffect_orig (m1 : Mode) (s : State) : (arbEffect m1 s).orig = s.orig := rfl
@[simp] theorem arbEffect_pc (m1 : Mode) (s : State) : (arbEffect m1 s).pc = (s.advance 2).pc := rfl
@[simp] theorem arbEffect_rb (m1 : Mode) (s : State) :
    (arbEffect m1 s).rb = Word.ofInt (s.rb.toInt + (operandWord 1 m1 s).toInt) := rfl
@[simp] theorem arbEffect_eng (m1 : Mode) (s : State) : (arbEffect m1 s).eng = s.eng := rfl
@[simp] theorem arbEffect_fcause (m1 : Mode) (s : State) : (arbEffect m1 s).fcause = s.fcause := rfl
@[simp] theorem arbEffect_finfo (m1 : Mode) (s : State) : (arbEffect m1 s).finfo = s.finfo := rfl
@[simp] theorem arbEffect_inq (m1 : Mode) (s : State) : (arbEffect m1 s).inq = s.inq := rfl
@[simp] theorem arbEffect_outq (m1 : Mode) (s : State) : (arbEffect m1 s).outq = s.outq := rfl
@[simp] theorem arbEffect_lastAddr (m1 : Mode) (s : State) : (arbEffect m1 s).lastAddr = s.lastAddr := rfl

@[simp] theorem jumpEffect_mem (f : Int → Bool) (m1 m2 : Mode) (s : State) : (jumpEffect f m1 m2 s).mem = s.mem := by
  unfold jumpEffect; dsimp only; split <;> rfl
@[simp] theorem jumpEffect_len (f : Int → Bool) (m1 m2 : Mode) (s : State) :
    (jumpEffect f m1 m2 s).len = lenAfter (touched 1 m1 s ++ touched 2 m2 s) s.len := by
  unfold jumpEffect; dsimp only; split <;> rfl
@[simp] theorem jumpEffect_orig (f : Int → Bool) (m1 m2 : Mode) (s : State) :
    (jumpEffect f m1 m2 s).orig = s.orig := by
  unfold jumpEffect; dsimp only; split <;> rfl
@[simp] theorem jumpEffect_pc (f : Int → Bool) (m1 m2 : Mode) (s : State) :
    (jumpEffect f m1 m2 s).pc = if f (operandWord 1 m1 s).toInt then operandWord 2 m2 s else (s.advance 3).pc := by
  unfold jumpEffect; dsimp only; split <;> rfl
@[simp] theorem jumpEffect_rb (f : Int → Bool) (m1 m2 : Mode) (s : State) : (jumpEffect f m1 m2 s).rb = s.rb := by
  unfold jumpEffect; dsimp only; split <;> rfl
@[simp] theorem jumpEffect_eng (f : Int → Bool) (m1 m2 : Mode) (s : State) : (jumpEffect f m1 m2 s).eng = s.eng := by
  unfold jumpEffect; dsimp only; split <;> rfl
@[simp] theorem jumpEffect_fcause (f : Int → Bool) (m1 m2 : Mode) (s : State) :
    (jumpEffect f m1 m2 s).fcause = s.fcause := by
  unfold jumpEffect; dsimp only; split <;> rfl
@[simp] theorem jumpEffect_finfo (f : Int → Bool) (m1 m2 : Mode) (s : State) :
    (jumpEffect f m1 m2 s).finfo = s.finfo := by
  unfold jumpEffect; dsimp only; split <;> rfl
@[simp] theorem jumpEffect_inq (f : Int → Bool) (m1 m2 : Mode) (s : State) : (jumpEffect f m1 m2 s).inq = s.inq := by
  unfold jumpEffect; dsimp only; split <;> rfl
@[simp] theorem jumpEffect_outq (f : Int → Bool) (m1 m2 : Mode) (s : State) :
    (jumpEffect f m1 m2 s).outq = s.outq := by
  unfold jumpEffect; dsimp only; split <;> rfl
@[simp] theorem jumpEffect_lastAddr (f : Int → Bool) (m1 m2 : Mode) (s : State) :
    (jumpEffect f m1 m2 s).lastAddr = s.lastAddr := by
  unfold jumpEffect; dsimp only; split <;> rfl

/-! ### The fields of an effect -/

/-- What an effect never changes, and that it never makes `len` smaller. -/
theorem effect_constants (i : Instr) (s : State) :
    (effect i s).orig = s.orig ∧ (effect i s).lastAddr = s.lastAddr ∧ (effect i s).fcause = s.fcause ∧
    (effect i s).finfo = s.finfo ∧ s.len ≤ (effect i s).len := by
  cases i with
  | inp m1 m2 m3 => cases hq : s.inq <;> simp [effect, hq, len_le_lenAfter]
  | _ => simp [effect, len_le_lenAfter]

/-- Only RelativeBaseOffset changes `rb` (10_state.md R23). -/
theorem effect_rb {i : Instr} {s : State} (h : ∀ m1 m2 m3, i ≠ .arb m1 m2 m3) : (effect i s).rb = s.rb := by
  cases i with
  | arb m1 m2 m3 => exact absurd rfl (h m1 m2 m3)
  | inp m1 m2 m3 => cases hq : s.inq <;> simp [effect, hq]
  | _ => simp [effect]

/-- Only an Input takes from `inq`, and only its front (43_io.md R130). -/
theorem effect_inq (i : Instr) (s : State) :
    (effect i s).inq = s.inq ∨ ∃ v m1 m2 m3, s.inq = v :: (effect i s).inq ∧ i = .inp m1 m2 m3 := by
  cases i with
  | inp m1 m2 m3 =>
    cases hq : s.inq with
    | nil => exact .inl (by simp [effect, hq])
    | cons v rest => exact .inr ⟨v, m1, m2, m3, by simp [effect, hq], rfl⟩
  | _ => exact .inl (by simp [effect])

/-- Only an Output adds to `outq`, and only at the back (43_io.md R131). -/
theorem effect_outq (i : Instr) (s : State) :
    (effect i s).outq = s.outq ∨ ∃ v m1 m2 m3, (effect i s).outq = s.outq ++ [v] ∧ i = .out m1 m2 m3 := by
  cases i with
  | inp m1 m2 m3 => cases hq : s.inq <;> exact .inl (by simp [effect, hq])
  | out m1 m2 m3 => exact .inr ⟨_, m1, m2, m3, outEffect_outq m1 s, rfl⟩
  | _ => exact .inl (by simp [effect])

/-- An effect on a RUNNING core suspends exactly for an Input with `inq` empty, halts exactly for a Halt, and never
faults (40_engine.md R80). -/
theorem effect_eng (i : Instr) {s : State} (h : s.eng = .running) :
    ((effect i s).eng = .suspended ↔ (∃ m1 m2 m3, i = .inp m1 m2 m3) ∧ s.inq = []) ∧
    ((effect i s).eng = .halted ↔ ∃ m1 m2 m3, i = .hlt m1 m2 m3) ∧
    (effect i s).eng ≠ .faulted := by
  cases i with
  | inp m1 m2 m3 => cases hq : s.inq <;> simp [effect, hq, h]
  | _ => simp [effect, h]

/-- Where the words of an instruction that did not fault lie in memory, `pc` advances by the width exactly. -/
theorem advance_of_noFault {i : Instr} {s : State} (hf : firstFault i s = none)
    (hq : ∀ m1 m2 m3, i = .inp m1 m2 m3 → s.inq ≠ []) :
    (s.advance i.width).pc.toInt = s.pc.toInt + i.width ∨ ∃ m1 m2 m3, i = .hlt m1 m2 m3 := by
  cases i with
  | add m1 m2 m3 =>
    simp only [firstFault, Option.or_eq_none_iff, paramFault_eq_none] at hf
    exact .inl (toInt_advance hf.2.2.1 (Nat.le_refl 4))
  | mul m1 m2 m3 =>
    simp only [firstFault, Option.or_eq_none_iff, paramFault_eq_none] at hf
    exact .inl (toInt_advance hf.2.2.1 (Nat.le_refl 4))
  | lt m1 m2 m3 =>
    simp only [firstFault, Option.or_eq_none_iff, paramFault_eq_none] at hf
    exact .inl (toInt_advance hf.2.1 (Nat.le_refl 4))
  | eq m1 m2 m3 =>
    simp only [firstFault, Option.or_eq_none_iff, paramFault_eq_none] at hf
    exact .inl (toInt_advance hf.2.1 (Nat.le_refl 4))
  | jt m1 m2 m3 =>
    simp only [firstFault, Option.or_eq_none_iff, paramFault_eq_none] at hf
    exact .inl (toInt_advance hf.1.2.1 (Nat.le_refl 3))
  | jf m1 m2 m3 =>
    simp only [firstFault, Option.or_eq_none_iff, paramFault_eq_none] at hf
    exact .inl (toInt_advance hf.1.2.1 (Nat.le_refl 3))
  | inp m1 m2 m3 =>
    simp only [firstFault, if_neg (hq m1 m2 m3 rfl)] at hf
    exact .inl (toInt_advance (paramFault_eq_none.mp hf).1 (Nat.le_refl 2))
  | out m1 m2 m3 => exact .inl (toInt_advance (paramFault_eq_none.mp hf).1 (Nat.le_refl 2))
  | arb m1 m2 m3 =>
    simp only [firstFault, Option.or_eq_none_iff, paramFault_eq_none] at hf
    exact .inl (toInt_advance hf.1.1 (Nat.le_refl 2))
  | hlt m1 m2 m3 => exact .inr ⟨m1, m2, m3, rfl⟩

/-- Where `pc` goes (40_engine.md R85): it stays on a suspension and on a halt, a jump may set it to its second operand
(which is then not negative), and else it advances by the width. -/
theorem effect_pc {i : Instr} {s : State} (hf : firstFault i s = none) :
    ((effect i s).pc = s.pc ∧ ((∃ m1 m2 m3, i = .hlt m1 m2 m3) ∨ (∃ m1 m2 m3, i = .inp m1 m2 m3) ∧ s.inq = [])) ∨
    (∃ m1 m2 m3, (i = .jt m1 m2 m3 ∨ i = .jf m1 m2 m3) ∧ (effect i s).pc = operandWord 2 m2 s ∧
      0 ≤ (operandWord 2 m2 s).toInt) ∨
    (effect i s).pc.toInt = s.pc.toInt + i.width := by
  have adv := advance_of_noFault hf
  cases i with
  | hlt m1 m2 m3 => exact .inl ⟨rfl, .inl ⟨m1, m2, m3, rfl⟩⟩
  | inp m1 m2 m3 =>
    cases hq : s.inq with
    | nil => exact .inl ⟨by simp [effect, hq], .inr ⟨⟨m1, m2, m3, rfl⟩, rfl⟩⟩
    | cons v rest =>
      refine .inr (.inr ?_)
      simpa [effect, hq, Instr.width] using adv (by simp [hq])
  | jt m1 m2 m3 =>
    have ht : ¬ ((operandWord 1 m1 s).toInt ≠ 0 ∧ (operandWord 2 m2 s).toInt < 0) :=
      targetFault_eq_none.mp (Option.or_eq_none_iff.mp hf).2
    by_cases hc : (operandWord 1 m1 s).toInt ≠ 0
    · refine .inr (.inl ⟨m1, m2, m3, .inl rfl, by simp [effect, hc], ?_⟩)
      by_contra hn
      exact ht ⟨hc, by omega⟩
    · refine .inr (.inr ?_)
      simpa [effect, hc, Instr.width] using adv (by simp)
  | jf m1 m2 m3 =>
    have ht : ¬ ((operandWord 1 m1 s).toInt = 0 ∧ (operandWord 2 m2 s).toInt < 0) :=
      targetFault_eq_none.mp (Option.or_eq_none_iff.mp hf).2
    by_cases hc : (operandWord 1 m1 s).toInt = 0
    · refine .inr (.inl ⟨m1, m2, m3, .inr rfl, by simp [effect, hc], ?_⟩)
      by_contra hn
      exact ht ⟨hc, by omega⟩
    · refine .inr (.inr ?_)
      simpa [effect, hc, Instr.width] using adv (by simp)
  | _ => exact .inr (.inr (by simpa [effect, Instr.width] using adv (by simp)))

/-- An effect keeps `len` within the machine's memory. -/
theorem effect_len_le {i : Instr} {s : State} (hf : firstFault i s = none) (h : s.len ≤ s.memWords) :
    (effect i s).len ≤ s.memWords := by
  have two {m1 m2} (h1 : Accessible 1 m1 s) (h2 : Accessible 2 m2 s) :
      lenAfter (touched 1 m1 s ++ touched 2 m2 s) s.len ≤ s.memWords :=
    lenAfter_append _ _ _ ▸ lenAfter_le (legal_of_touched h2) (lenAfter_le (legal_of_touched h1) h)
  have three {m1 m2 m3} (h1 : Accessible 1 m1 s) (h2 : Accessible 2 m2 s) (h3 : Accessible 3 m3 s) :
      lenAfter (touched 1 m1 s ++ touched 2 m2 s ++ touched 3 m3 s) s.len ≤ s.memWords :=
    lenAfter_append _ _ _ ▸ lenAfter_le (legal_of_touched h3) (two h1 h2)
  cases i with
  | add m1 m2 m3 =>
    simp only [firstFault, Option.or_eq_none_iff, paramFault_eq_none] at hf
    simpa only [effect, aluEffect_len] using three hf.1.1 hf.1.2 hf.2.2
  | mul m1 m2 m3 =>
    simp only [firstFault, Option.or_eq_none_iff, paramFault_eq_none] at hf
    simpa only [effect, aluEffect_len] using three hf.1.1 hf.1.2 hf.2.2
  | lt m1 m2 m3 =>
    simp only [firstFault, Option.or_eq_none_iff, paramFault_eq_none] at hf
    simpa only [effect, aluEffect_len] using three hf.1.1 hf.1.2 hf.2
  | eq m1 m2 m3 =>
    simp only [firstFault, Option.or_eq_none_iff, paramFault_eq_none] at hf
    simpa only [effect, aluEffect_len] using three hf.1.1 hf.1.2 hf.2
  | jt m1 m2 m3 =>
    simp only [firstFault, Option.or_eq_none_iff, paramFault_eq_none] at hf
    simpa only [effect, jumpEffect_len] using two hf.1.1 hf.1.2
  | jf m1 m2 m3 =>
    simp only [firstFault, Option.or_eq_none_iff, paramFault_eq_none] at hf
    simpa only [effect, jumpEffect_len] using two hf.1.1 hf.1.2
  | inp m1 m2 m3 =>
    cases hq : s.inq with
    | nil => simpa only [effect, hq, State.setEng_len] using h
    | cons v rest =>
      simp only [firstFault, hq] at hf
      simpa only [effect, hq, popEffect_len] using lenAfter_le (legal_of_touched (paramFault_eq_none.mp hf)) h
  | out m1 m2 m3 =>
    simpa only [effect, outEffect_len] using lenAfter_le (legal_of_touched (paramFault_eq_none.mp hf)) h
  | arb m1 m2 m3 =>
    simp only [firstFault, Option.or_eq_none_iff, paramFault_eq_none] at hf
    simpa only [effect, arbEffect_len] using lenAfter_le (legal_of_touched hf.1) h
  | hlt m1 m2 m3 => exact h

/-- An effect leaves memory or writes one word, at an address below the new `len`. -/
theorem effect_mem (i : Instr) (s : State) :
    (effect i s).mem = s.mem ∨ ∃ a v, (effect i s).mem = s.mem.write a v ∧ a < (effect i s).len := by
  have alu (m1 m2 m3 : Mode) (r : Word) : ∃ a v, (aluEffect m1 m2 m3 r s).mem = s.mem.write a v ∧
      a < (aluEffect m1 m2 m3 r s).len :=
    ⟨(operandAddr 3 m3 s).toNat, r, rfl, lt_lenAfter (a := operandAddr 3 m3 s) (by simp [touched]) s.len⟩
  cases i with
  | add m1 m2 m3 => exact .inr (alu m1 m2 m3 _)
  | mul m1 m2 m3 => exact .inr (alu m1 m2 m3 _)
  | lt m1 m2 m3 => exact .inr (alu m1 m2 m3 _)
  | eq m1 m2 m3 => exact .inr (alu m1 m2 m3 _)
  | inp m1 m2 m3 =>
    cases hq : s.inq with
    | nil => exact .inl (by simp [effect, hq])
    | cons v rest =>
      refine .inr ⟨(operandAddr 1 m1 s).toNat, v, by simp only [effect, hq, popEffect_mem], ?_⟩
      simpa only [effect, hq, popEffect_len] using lt_lenAfter (a := operandAddr 1 m1 s) (by simp [touched]) s.len
  | _ => exact .inl (by simp [effect])

/-- An ALU effect stores its result, advances by 4 and changes no other field. -/
theorem aluEffect_stored {m1 m2 m3 : Mode} {s : State} (h : Accessible 3 m3 s) (r : Word) :
    StoredAndAdvanced (touched 1 m1 s ++ touched 2 m2 s ++ touched 3 m3 s) (operandAddr 3 m3 s) r.toInt 4 s
      (aluEffect m1 m2 m3 r s) where
  stored := by
    show ((s.mem.write _ r).read _).toInt = _
    rw [Memory.read_write, if_pos rfl]
  otherWords a ha := by
    show (s.mem.write _ r).read a = _
    rw [Memory.read_write, if_neg ha]
  advanced := toInt_advance (s := s) h.1 (Nat.le_refl 4)
  grown := rfl
  rest := rfl

/-- An Input's effect stores the popped value, advances by 2 and changes no other field but `inq`. -/
theorem popEffect_stored {m1 : Mode} {s : State} (h : Accessible 1 m1 s) (v : Word) (rest : List Word) :
    StoredAndAdvanced (touched 1 m1 s) (operandAddr 1 m1 s) v.toInt 2 (s.setInput rest) (popEffect m1 v rest s) where
  stored := by
    show ((s.mem.write _ v).read _).toInt = _
    rw [Memory.read_write, if_pos rfl]
  otherWords a ha := by
    show (s.mem.write _ v).read a = s.mem.read a
    rw [Memory.read_write, if_neg ha]
  advanced := toInt_advance (s := s) h.1 (Nat.le_refl 2)
  grown := rfl
  rest := rfl

end Sys2Proof.Machine
end

