-- ==== Sys2Proof/Laws/Step.lean ====
section
/-! SUPPORT. What one step can do, said once, and that every step answers a next state. -/

namespace Sys2Proof.Machine

theorem step_of_not_awake {s : State} (h : ¬ s.Awake) : step s = .next s := by
  unfold State.Awake at h
  unfold step wake
  cases he : s.eng <;> simp_all

theorem wake_of_awake {s : State} (h : s.Awake) : wake s = some (s.setEng .running) := by
  unfold wake
  rcases h with h | h <;> rw [h]
  show some s = some { s with eng := .running }
  rw [← h]

/-- A fetch from a legal `pc` decodes the word there, with `len` grown (40_engine.md R83). -/
theorem fetchDecode_legal {s : State} (h : s.Legal s.pc.toInt) :
    fetchDecode s =
      match decode (fetchWord s) with
      | .instr i => .ok i (s.withLen (lenAfter [s.pc.toInt] s.len))
      | .unknownOpcode => .raised ((s.withLen (lenAfter [s.pc.toInt] s.len)).raise .unknownOpcode (fetchWord s).toInt)
      | .invalidMode => .raised ((s.withLen (lenAfter [s.pc.toInt] s.len)).raise .invalidMode (fetchWord s).toInt) := by
  rw [fetchDecode, memRead_legal h]
  rfl

theorem fetchDecode_fault {s : State} {c : FCause} {x : Int} (h : addrFault s s.pc.toInt = some (c, x)) :
    fetchDecode s = .raised (s.raise c x) := by
  rw [fetchDecode, memRead_fault h]
  rfl

/-- The step of a core that runs, through its fetch. -/
theorem step_of_awake {s : State} (h : s.Awake) :
    step s = match fetchDecode (s.setEng .running) with
      | .ok i s => exec i s
      | .raised s => .next s :=
  congrArg (fun o : Option State =>
    match o with
    | none => Host.Outcome.next s
    | some s =>
      match fetchDecode s with
      | .ok i s => exec i s
      | .raised s => .next s) (wake_of_awake h)

/-- A fetch that succeeds hands the decoded instruction a state that is RUNNING with `len` grown. -/
theorem step_of_fetches {s : State} {i : Instr} (ha : s.Awake) (h : Fetches s i) : step s = exec i s.fetched := by
  have hd : decode (fetchWord (s.setEng .running)) = .instr i := h.2
  rw [step_of_awake ha, fetchDecode_legal (s := s.setEng .running) h.1, hd]
  rfl

theorem fetched_eq (s : State) : s.fetched = (s.setEng .running).withLen (lenAfter [s.pc.toInt] s.len) := rfl

/-- The checks of an instruction do not depend on `eng` or `len`. -/
theorem firstFault_fetched (i : Instr) (s : State) : firstFault i s.fetched = firstFault i s := by
  cases i <;> rfl

theorem inputAfterFault_fetched (i : Instr) (s : State) : inputAfterFault i s.fetched = inputAfterFault i s := by
  cases i <;> rfl

/-- Everything a step of a core that runs can do: the effect of the fetched instruction, or the entry of the first fault. -/
theorem step_cases {s t : State} (ha : s.Awake) (h : step s = .next t) :
    (∃ i, Fetches s i ∧ stepFault s = none ∧ firstFault i s = none ∧ t = effect i s.fetched) ∨
    (∃ i c x, Fetches s i ∧ stepFault s = some (c, x) ∧ firstFault i s = some (c, x) ∧
      FaultEntered c x (s.setInput (inputAfterFault i s)) t) ∨
    (∃ c x, (∀ i, ¬ Fetches s i) ∧ stepFault s = some (c, x) ∧ FaultEntered c x s t) := by
  cases hf : addrFault s s.pc.toInt with
  | some f =>
    have hn : ∀ i, ¬ Fetches s i := fun i hi => by
      have := addrFault_eq_none.mpr hi.1
      rw [hf] at this
      cases this
    have hr : fetchDecode (s.setEng .running) = .raised ((s.setEng .running).raise f.1 f.2) := by
      exact fetchDecode_fault (s := s.setEng .running) hf
    rw [step_of_awake ha, hr] at h
    cases h
    exact .inr (.inr ⟨f.1, f.2, hn, by rw [stepFault, hf]; rfl, rfl, Nat.le_refl _, Nat.le_max_left _ _⟩)
  | none =>
    have hl := addrFault_eq_none.mp hf
    cases hd : decode (fetchWord s) with
    | instr i =>
      have hi : Fetches s i := ⟨hl, hd⟩
      have hs : stepFault s = firstFault i s := by rw [stepFault, hf, hd]; rfl
      rw [step_of_fetches ha hi] at h
      rcases exec_cases h with ⟨h1, h2⟩ | ⟨c, x, h1, h2⟩
      · rw [firstFault_fetched] at h1
        exact .inl ⟨i, hi, hs.trans h1, h1, h2⟩
      · rw [firstFault_fetched] at h1
        rw [inputAfterFault_fetched] at h2
        refine .inr (.inl ⟨i, c, x, hi, hs.trans h1, h1, ?_⟩)
        exact h2.of_withLen (s := s.setInput (inputAfterFault i s)) (n := lenAfter [s.pc.toInt] s.len)
          (len_le_lenAfter _ _) (grown_le_max hl)
    | unknownOpcode =>
      have hn : ∀ i, ¬ Fetches s i := fun i hi => by
        have := hi.2
        rw [hd] at this
        cases this
      have hd' : decode (fetchWord (s.setEng .running)) = .unknownOpcode := hd
      rw [step_of_awake ha, fetchDecode_legal (s := s.setEng .running) hl, hd'] at h
      cases h
      exact .inr (.inr ⟨_, _, hn, by rw [stepFault, hf, hd]; rfl, rfl, Nat.le_max_left _ _, grown_le_max hl⟩)
    | invalidMode =>
      have hn : ∀ i, ¬ Fetches s i := fun i hi => by
        have := hi.2
        rw [hd] at this
        cases this
      have hd' : decode (fetchWord (s.setEng .running)) = .invalidMode := hd
      rw [step_of_awake ha, fetchDecode_legal (s := s.setEng .running) hl, hd'] at h
      cases h
      exact .inr (.inr ⟨_, _, hn, by rw [stepFault, hf, hd]; rfl, rfl, Nat.le_max_left _ _, grown_le_max hl⟩)

/-- Every step answers a next state. -/
theorem step_next (s : State) : ∃ t, step s = .next t := by
  by_cases ha : s.Awake
  · rw [step_of_awake ha]
    cases fetchDecode (s.setEng .running) with
    | ok i s => exact exec_next i s
    | raised t => exact ⟨t, rfl⟩
  · exact ⟨s, step_of_not_awake ha⟩

/-- A fetched instruction is the only one. -/
theorem Fetches.unique {s : State} {i j : Instr} (hi : Fetches s i) (hj : Fetches s j) : i = j := by
  have := hi.2.symm.trans hj.2
  cases this
  rfl

end Sys2Proof.Machine
end

