-- ==== Sys2Proof/Laws/HostPort.lean ====
section
/-! SUPPORT. What the host's commands can do, said once; how a step suspends; and that neither `len` nor input further
back in the queue changes what a step does. -/

namespace Sys2Proof.Machine

/-! ### Waking -/

theorem not_awake_iff {s : State} : ¬ s.Awake ↔ s.eng = .halted ∨ s.eng = .faulted := by
  unfold State.Awake
  cases s.eng <;> decide

theorem wake_of_not_awake {s : State} (h : ¬ s.Awake) : wake s = none := by
  unfold wake
  rcases not_awake_iff.mp h with h | h <;> rw [h]

/-- A suspended core steps as the same core RUNNING does (40_engine.md R86). -/
theorem step_setRunning {s : State} (h : s.Awake) : step (s.setEng .running) = step s := by
  rw [step_of_awake h, step_of_awake (s := s.setEng .running) (.inl rfl)]
  rfl

/-! ### STEP and RUN -/

theorem hostStep_eq {s t : State} (h : step s = .next t) : hostStep s = (ranReply t, t) := by
  rw [hostStep, h]

theorem runLoop_stop {n : Nat} {s : State} (h : s.eng ≠ .running) : runLoop n s = some s := by
  cases n <;> simp [runLoop, h]

theorem runLoop_step {n : Nat} {s t : State} (h : s.eng = .running) (ht : step s = .next t) :
    runLoop (n + 1) s = runLoop n t := by
  rw [runLoop, if_pos h, ht]

/-- A run loop that returns has left RUNNING. -/
theorem runLoop_ends {n : Nat} {s t : State} (h : runLoop n s = some t) : t.eng ≠ .running := by
  induction n generalizing s with
  | zero =>
    unfold runLoop at h
    split at h
    · cases h
    · cases h
      assumption
  | succ n ih =>
    by_cases he : s.eng = .running
    · obtain ⟨u, hu⟩ := step_next s
      rw [runLoop_step he hu] at h
      exact ih h
    · rw [runLoop_stop he] at h
      cases h
      exact he

theorem hostRun_of_awake {n : Nat} {s : State} (h : s.Awake) :
    hostRun n s = (runLoop n (s.setEng .running)).map fun t => (ranReply t, t) := by
  rw [hostRun, wake_of_awake h]

theorem hostRun_of_not_awake {n : Nat} {s : State} (h : ¬ s.Awake) : hostRun n s = some (ranReply s, s) := by
  rw [hostRun, wake_of_not_awake h]

/-! ### Suspension -/

/-- A step that suspends is an Input that found `inq` empty, and it changed `eng` (and `len`, by the fetch) alone. -/
theorem suspends_cases {s t : State} (ha : s.Awake) (ht : step s = .next t) (he : t.eng = .suspended) :
    (∃ m1 m2 m3, Fetches s (.inp m1 m2 m3)) ∧ s.inq = [] ∧ t = s.fetched.setEng .suspended := by
  rcases step_cases ha ht with ⟨i, hi, _, _, rfl⟩ | ⟨_, _, _, _, _, _, hf⟩ | ⟨_, _, _, _, hf⟩
  · obtain ⟨⟨m1, m2, m3, rfl⟩, hq⟩ := (effect_eng i (s := s.fetched) rfl).1.mp he
    exact ⟨⟨m1, m2, m3, hi⟩, hq, by simp only [effect, hq]⟩
  · rw [hf.1] at he
    cases he
  · rw [hf.1] at he
    cases he

theorem step_of_empty_input {s : State} {m1 m2 m3 : Mode} (ha : s.Awake) (hi : Fetches s (.inp m1 m2 m3))
    (hq : s.inq = []) : step s = .next (s.fetched.setEng .suspended) := by
  have hq : s.fetched.inq = [] := hq
  rw [step_of_fetches ha hi, exec_of_noFault (by simp [firstFault, hq])]
  simp only [effect, hq]

/-! ### Input behind the front of the queue changes no step that completes -/

theorem firstFault_append {i : Instr} {s : State} {vs : List Word} (h : s.inq ≠ [] ∨ ∀ m1 m2 m3, i ≠ .inp m1 m2 m3) :
    firstFault i (s.setInput (s.inq ++ vs)) = firstFault i s := by
  cases i with
  | inp m1 m2 m3 =>
    have hq : s.inq ≠ [] := h.resolve_right fun h => h m1 m2 m3 rfl
    have hq' : (s.setInput (s.inq ++ vs)).inq ≠ [] := by simp [hq]
    unfold firstFault
    dsimp only
    rw [if_neg hq, if_neg hq']
    rfl
  | _ => rfl

theorem effect_append {i : Instr} {s : State} {vs : List Word} (h : s.inq ≠ [] ∨ ∀ m1 m2 m3, i ≠ .inp m1 m2 m3) :
    effect i (s.setInput (s.inq ++ vs)) = (effect i s).setInput ((effect i s).inq ++ vs) := by
  cases i with
  | inp m1 m2 m3 =>
    obtain ⟨v, rest, hq⟩ := List.exists_cons_of_ne_nil (h.resolve_right fun h => h m1 m2 m3 rfl)
    simp only [effect, State.setInput_inq, hq, List.cons_append]
    rfl
  | jt m1 m2 m3 =>
    simp only [effect, jumpEffect]
    rw [show operandWord 1 m1 (s.setInput (s.inq ++ vs)) = operandWord 1 m1 s from rfl]
    split <;> rfl
  | jf m1 m2 m3 =>
    simp only [effect, jumpEffect]
    rw [show operandWord 1 m1 (s.setInput (s.inq ++ vs)) = operandWord 1 m1 s from rfl]
    split <;> rfl
  | _ => rfl

/-! ### `len` changes no step -/

theorem stepFault_withLen (s : State) (n : Nat) : stepFault (s.withLen n) = stepFault s := by
  unfold stepFault fetchWord
  simp only [State.withLen_pc, State.withLen_mem, addrFault_withLen]
  congr 1

theorem eq_withLen_of_forgetLen {s t : State} (h : s.forgetLen = t.forgetLen) : t = s.withLen t.len := by
  cases s
  cases t
  simp_all [State.forgetLen, State.withLen]

theorem aluEffect_forgetLen (m1 m2 m3 : Mode) (r : State → Word) (s : State) (n : Nat) (h : r (s.withLen n) = r s) :
    (aluEffect m1 m2 m3 (r (s.withLen n)) (s.withLen n)).forgetLen = (aluEffect m1 m2 m3 (r s) s).forgetLen := by
  rw [h]
  rfl

/-- An effect in a state that differs in `len` alone differs in `len` alone. -/
theorem effect_forgetLen (i : Instr) (s : State) (n : Nat) : (effect i (s.withLen n)).forgetLen = (effect i s).forgetLen := by
  cases i with
  | inp m1 m2 m3 =>
    simp only [effect, State.withLen_inq]
    split <;> rfl
  | jt m1 m2 m3 =>
    simp only [effect, jumpEffect]
    rw [show operandWord 1 m1 (s.withLen n) = operandWord 1 m1 s from rfl]
    split <;> rfl
  | jf m1 m2 m3 =>
    simp only [effect, jumpEffect]
    rw [show operandWord 1 m1 (s.withLen n) = operandWord 1 m1 s from rfl]
    split <;> rfl
  | add m1 m2 m3 =>
    exact aluEffect_forgetLen m1 m2 m3
      (fun s => Word.ofInt ((operandWord 1 m1 s).toInt + (operandWord 2 m2 s).toInt)) s n rfl
  | mul m1 m2 m3 =>
    exact aluEffect_forgetLen m1 m2 m3
      (fun s => Word.ofInt ((operandWord 1 m1 s).toInt * (operandWord 2 m2 s).toInt)) s n rfl
  | lt m1 m2 m3 =>
    exact aluEffect_forgetLen m1 m2 m3
      (fun s => truthWord (decide ((operandWord 1 m1 s).toInt < (operandWord 2 m2 s).toInt))) s n rfl
  | eq m1 m2 m3 =>
    exact aluEffect_forgetLen m1 m2 m3
      (fun s => truthWord (decide ((operandWord 1 m1 s).toInt = (operandWord 2 m2 s).toInt))) s n rfl
  | _ => rfl

/-! ### The port as the host sees it -/

/-- Everything a host's command can do: a token that stands for no snapshot is refused, else one instance serves it. -/
theorem Port.serve_cases {fuel k : Nat} {c : HostCommand} {p q : Port} {r : HostReply}
    (h : Port.serve fuel k c p = some (r, q)) :
    (HostCommand.resolve p.held c = none ∧ r = .refused ∧ q = p) ∨
    ∃ d s a t, HostCommand.resolve p.held c = some d ∧ p.cores[k]? = some s ∧ Machine.serve fuel d s = some (a, t) ∧
      r = Reply.shown p.held a ∧ q = { cores := p.cores.set k t, held := Reply.hold p.held a } := by
  unfold Port.serve at h
  split at h
  · next hd =>
    cases h
    exact .inl ⟨hd, rfl, rfl⟩
  · next d hd =>
    obtain ⟨rc, hrc, h⟩ := Option.map_eq_some_iff.mp h
    cases h
    unfold Cores.serve at hrc
    split at hrc
    · cases hrc
    · next s hs =>
      obtain ⟨rt, hrt, hrc⟩ := Option.map_eq_some_iff.mp hrc
      cases hrc
      exact .inr ⟨d, s, rt.1, rt.2, hd, hs, hrt, rfl, rfl⟩

/-- A command that resolves, to an instance that exists, is served by it. -/
theorem Port.serve_resolved {fuel k : Nat} {c : HostCommand} {d : Command} {p : Port} {s : State}
    (hd : HostCommand.resolve p.held c = some d) (hs : p.cores[k]? = some s) :
    Port.serve fuel k c p = (Machine.serve fuel d s).map fun rt =>
      (Reply.shown p.held rt.1, { cores := p.cores.set k rt.2, held := Reply.hold p.held rt.1 }) := by
  unfold Port.serve Cores.serve
  simp only [hd, hs, Option.map_map]
  rfl

theorem Port.serve_unresolved {fuel k : Nat} {c : HostCommand} {p : Port} (hd : HostCommand.resolve p.held c = none) :
    Port.serve fuel k c p = some (.refused, p) := by
  unfold Port.serve
  simp only [hd]

/-- What INSTALL is given is a snapshot held. -/
theorem HostCommand.mem_of_resolve {held : List Snapshot} {c : HostCommand} {snap : Snapshot}
    (h : HostCommand.resolve held c = some (.install snap)) : snap ∈ held := by
  cases c <;> simp only [HostCommand.resolve, Option.some.injEq, reduceCtorEq, Option.map_eq_some_iff,
    CommandOf.install.injEq, exists_eq_right] at h
  exact List.mem_of_getElem? h

/-- Only CAPTURE answers a snapshot: its instance's own, with no change. -/
theorem serve_snapshot {fuel : Nat} {c : Command} {s t : State} {snap : Snapshot}
    (h : serve fuel c s = some (.snapshot snap, t)) : c = .capture ∧ snap = ⟨s.mem, s.len, s.pc, s.rb⟩ ∧ t = s := by
  cases c with
  | run =>
    simp only [serve, hostRun, ranReply] at h
    split at h
    · cases h
    · obtain ⟨u, _, hu⟩ := Option.map_eq_some_iff.mp h
      cases hu
  | step =>
    obtain ⟨u, hu⟩ := step_next s
    simp only [serve, hostStep_eq hu, ranReply] at h
    cases h
  | capture =>
    cases h
    exact ⟨rfl, rfl, rfl⟩
  | load ws =>
    simp only [serve, hostLoad] at h
    split at h <;> cases h
  | poke a v =>
    simp only [serve, hostPoke] at h
    split at h <;> cases h
  | peek a =>
    simp only [serve, hostPeek] at h
    split at h <;> cases h
  | enq v =>
    simp only [serve, hostEnq] at h
    split at h <;> cases h
  | outRead => cases h
  | outClear =>
    simp only [serve, hostOutClear] at h
    split at h <;> cases h
  | reset =>
    simp only [serve, hostReset] at h
    split at h <;> cases h
  | status => cases h
  | install snap =>
    simp only [serve, hostInstall] at h
    split at h <;> cases h

/-- A reply adds no snapshot but its own. -/
theorem Reply.hold_cases (held : List Snapshot) (a : Reply) :
    Reply.hold held a = held ∨ ∃ snap, a = .snapshot snap ∧ Reply.hold held a = held ++ [snap] := by
  cases a with
  | snapshot snap => exact .inr ⟨snap, rfl, rfl⟩
  | _ => exact .inl rfl

/-- What the host is shown depends on nothing inside a snapshot. -/
theorem Reply.shown_forgetLen (held : List Snapshot) (a : Reply) :
    Reply.shown held a.forgetLen = Reply.shown held a := by
  cases a <;> rfl

/-- What the host is shown of a snapshot is how many are held. -/
theorem Reply.shown_of_length {held kept : List Snapshot} (h : held.length = kept.length) (a : Reply) :
    Reply.shown held a = Reply.shown kept a := by
  cases a <;> simp [Reply.shown, h]

/-! ### An instruction placed where the next step fetches -/

theorem fetchPlace_lt (s : State) : fetchPlace s < s.memWords := by
  unfold fetchPlace
  split
  · next h =>
    have h1 := h.1
    have h2 := h.2
    omega
  · exact Nat.succ_pos _

theorem storeWords_lastAddr (ws : List Word) (a : Nat) (s : State) : (s.storeWords a ws).lastAddr = s.lastAddr := by
  induction ws generalizing a s with
  | nil => rfl
  | cons w ws ih =>
    rw [State.storeWords, ih]
    split <;> rfl

theorem storeWords_eng (ws : List Word) (a : Nat) (s : State) : (s.storeWords a ws).eng = s.eng := by
  induction ws generalizing a s with
  | nil => rfl
  | cons w ws ih =>
    rw [State.storeWords, ih]
    split <;> rfl

theorem storeWords_read_below (ws : List Word) (a b : Nat) (s : State) (h : b < a) :
    (s.storeWords a ws).mem.read b = s.mem.read b := by
  induction ws generalizing a s with
  | nil => rfl
  | cons w ws ih =>
    rw [State.storeWords, ih (a + 1) _ (by omega)]
    split
    · show (s.mem.write a w).read b = _
      rw [Memory.read_write, if_neg (by omega)]
    · rfl

theorem toNat_fetchPlace (s : State) : (BitVec.ofNat 64 (fetchPlace s)).toInt = fetchPlace s := by
  have h1 := fetchPlace_lt s
  have h2 := s.lastAddr.isLt
  unfold State.memWords at h1
  rw [show (BitVec.ofNat 64 (fetchPlace s)).toInt = _ from BitVec.toInt_ofNat _]
  unfold Config.memWordsMax at h2
  exact Int.bmod_eq_of_le (by omega) (by omega)

/-- The very next step after placing words fetches the first of them. -/
theorem fetches_placeWords (s : State) (w : Word) (ws : List Word) :
    (s.placeWords (w :: ws)).Awake ∧ (s.placeWords (w :: ws)).Legal (s.placeWords (w :: ws)).pc.toInt ∧
      fetchWord (s.placeWords (w :: ws)) = w := by
  have hp : (s.placeWords (w :: ws)).pc = BitVec.ofNat 64 (fetchPlace s) := by
    unfold State.placeWords
    dsimp only
    split <;> rfl
  have hm : (s.placeWords (w :: ws)).mem = (s.storeWords (fetchPlace s) (w :: ws)).mem := by
    unfold State.placeWords
    dsimp only
    split <;> rfl
  have hl : (s.placeWords (w :: ws)).lastAddr = s.lastAddr := by
    unfold State.placeWords
    dsimp only
    split <;> exact storeWords_lastAddr _ _ _
  refine ⟨?_, ?_, ?_⟩
  · unfold State.placeWords
    dsimp only
    split
    · exact .inl rfl
    · next h =>
      rw [← not_awake_iff, not_not] at h
      show _ ∨ _
      rw [storeWords_eng]
      exact h
  · have h := fetchPlace_lt s
    rw [hp, toNat_fetchPlace]
    unfold State.Legal State.memWords
    rw [hl]
    unfold State.memWords at h
    omega
  · unfold fetchWord
    rw [hp, toNat_fetchPlace, hm, Int.toNat_natCast, State.storeWords, if_pos (fetchPlace_lt s),
      storeWords_read_below _ _ _ _ (Nat.lt_succ_self _)]
    show (s.mem.write _ w).read _ = w
    rw [Memory.read_write, if_pos rfl]

/-- The host's question of an opcode-table word: the step after placing it runs the instruction the decoder reads. -/
theorem step_withFetchWord {s : State} {nbits w : Nat} {i : Instr} (h : decodeTableWord nbits w = some i) :
    step (s.withFetchWord nbits w) = exec i (s.withFetchWord nbits w).fetched := by
  obtain ⟨ha, hl, hw⟩ := fetches_placeWords s (BitVec.ofNat 64 (w % 2 ^ nbits))
    [BitVec.ofNat 64 (w % 2 ^ nbits / 2 ^ 64), BitVec.ofNat 64 (w % 2 ^ nbits / 2 ^ 128),
      BitVec.ofNat 64 (w % 2 ^ nbits / 2 ^ 192)]
  refine step_of_fetches ha ⟨hl, ?_⟩
  show decode (fetchWord (s.withFetchWord nbits w)) = _
  rw [show fetchWord (s.withFetchWord nbits w) = _ from hw]
  unfold decodeTableWord at h
  split at h
  · next j hj =>
    cases h
    exact hj
  · cases h
  · cases h

end Sys2Proof.Machine
end

