-- ==== Sys2Proof/Laws/PerInstr.lean ====
section
/-! SUPPORT. Statements for all instructions, one lemma per constructor. -/

/-- Every instruction's word is legal by the checks of WellFormed.lean, and its width is 1 to 4 (30_encoding.md R61,
R64). -/
def Sys2Proof.Laws.WordIsLegal.Statement (i : Sys2Proof.Instr) : Prop :=
  i.WellFormed ∧ 1 ≤ i.width ∧ i.width ≤ 4

namespace Sys2Proof.Laws.WordIsLegal

/-- The decimal digits of an instruction word, from the formula of R61, pass every check of R69. -/
theorem wellFormed (i : Instr) : i.WellFormed := by
  have hb := i.value_bounds
  have ho := i.opcode_lt
  have h1 := i.modes.1.digit_le
  have h2 := i.modes.2.1.digit_le
  have h3 := i.modes.2.2.digit_le
  have hop : i.value % 100 = i.opcode := by unfold Instr.value; omega
  have hknown : i.opcode ∈ legalOpcodes := by cases i <;> simp [Instr.opcode, legalOpcodes]
  unfold Instr.WellFormed legality decDigit
  rw [Int.toNat_natCast, if_neg (by omega), if_neg (by rw [hop]; exact not_not.mpr hknown), if_neg (by omega),
    if_neg (by unfold Instr.value; omega)]

theorem add (m1 m2 m3 : Mode) : Statement (.add m1 m2 m3) :=
  ⟨wellFormed _, by simp [Instr.width], by simp [Instr.width]⟩

theorem mul (m1 m2 m3 : Mode) : Statement (.mul m1 m2 m3) :=
  ⟨wellFormed _, by simp [Instr.width], by simp [Instr.width]⟩

theorem inp (m1 m2 m3 : Mode) : Statement (.inp m1 m2 m3) :=
  ⟨wellFormed _, by simp [Instr.width], by simp [Instr.width]⟩

theorem out (m1 m2 m3 : Mode) : Statement (.out m1 m2 m3) :=
  ⟨wellFormed _, by simp [Instr.width], by simp [Instr.width]⟩

theorem jt (m1 m2 m3 : Mode) : Statement (.jt m1 m2 m3) :=
  ⟨wellFormed _, by simp [Instr.width], by simp [Instr.width]⟩

theorem jf (m1 m2 m3 : Mode) : Statement (.jf m1 m2 m3) :=
  ⟨wellFormed _, by simp [Instr.width], by simp [Instr.width]⟩

theorem lt (m1 m2 m3 : Mode) : Statement (.lt m1 m2 m3) :=
  ⟨wellFormed _, by simp [Instr.width], by simp [Instr.width]⟩

theorem eq (m1 m2 m3 : Mode) : Statement (.eq m1 m2 m3) :=
  ⟨wellFormed _, by simp [Instr.width], by simp [Instr.width]⟩

theorem arb (m1 m2 m3 : Mode) : Statement (.arb m1 m2 m3) :=
  ⟨wellFormed _, by simp [Instr.width], by simp [Instr.width]⟩

theorem hlt (m1 m2 m3 : Mode) : Statement (.hlt m1 m2 m3) :=
  ⟨wellFormed _, by simp [Instr.width], by simp [Instr.width]⟩

end Sys2Proof.Laws.WordIsLegal
end

