-- ==== Sys2Proof/Tests/Slice0.lean ====
section
/-! SUPPORT. Tests whose expected results are the spec's (95_test_vectors.md, 30_encoding.md), and for every obligation
with hypotheses a concrete state and operands that meet them. -/

namespace Sys2Proof.Tests

open Sys2Proof.Machine

/-! ### Helpers -/

/-- The state after LOAD of these words on a machine of 16 words. -/
def small (ws : List Word) : State := State.loaded ws ⟨15, by decide⟩

/-- The state after LOAD of these words on a machine of 1024 words. -/
def large (ws : List Word) : State := State.loaded ws ⟨1023, by decide⟩

/-- The state one step later. -/
def after (s : State) : State :=
  match step s with
  | .next t => t
  | .fault _ => s
  | .refused _ => s

/-! ### The checks of WellFormed refuse ill-formed words (30_encoding.md R62, R69) -/

theorem test_legality_negative : legality (-1) = .unknownOpcode ∧ legality (-99) = .unknownOpcode := by decide
theorem test_legality_opcode : legality 0 = .unknownOpcode ∧ legality 98 = .unknownOpcode ∧ legality 300 = .unknownOpcode := by
  decide
theorem test_legality_size : legality 100099 = .invalidMode ∧ legality 100001 = .invalidMode := by decide
theorem test_legality_mode_digits :
    legality 399 = .invalidMode ∧ legality 3001 = .invalidMode ∧ legality 30001 = .invalidMode := by decide
theorem test_legality_legal : legality 1 = .legal ∧ legality 22299 = .legal ∧ legality 1002 = .legal := by decide

/-! ### Decoding: words written out from R61 and R64, digit by digit -/

/-- 2 1 1 07, D-DEC-10, and 0 1 0 02, D-DEC-9. -/
theorem test_decode_vectors :
    decode 21107 = .instr (.lt .immediate .immediate .relative) ∧
      decode 1002 = .instr (.mul .position .immediate .position) := by decide
/-- m3 m2 m1 = 2 0 1. -/
theorem test_decode_add : decode 20101 = .instr (.add .immediate .position .relative) := by decide
theorem test_decode_mul : decode 10202 = .instr (.mul .relative .position .immediate) := by decide
theorem test_decode_in : decode 203 = .instr (.inp .relative .position .position) := by decide
theorem test_decode_out : decode 104 = .instr (.out .immediate .position .position) := by decide
theorem test_decode_jt : decode 2105 = .instr (.jt .immediate .relative .position) := by decide
theorem test_decode_jf : decode 1206 = .instr (.jf .relative .immediate .position) := by decide
theorem test_decode_lt : decode 1007 = .instr (.lt .position .immediate .position) := by decide
theorem test_decode_eq : decode 108 = .instr (.eq .immediate .position .position) := by decide
theorem test_decode_arb : decode 209 = .instr (.arb .relative .position .position) := by decide
theorem test_decode_hlt : decode 99 = .instr (.hlt .position .position .position) := by decide
theorem test_decode_rejects :
    decode 0 = .unknownOpcode ∧ decode (-99) = .unknownOpcode ∧ decode 399 = .invalidMode ∧
      decode 100099 = .invalidMode := by decide

theorem test_encode : encode (.lt .immediate .immediate .relative) = 21107 ∧
    encode (.hlt .relative .relative .relative) = 22299 := by decide

/-- `ADD [10], #-1, [10]` is `1001,10,-1,10` (program P1). -/
theorem test_asm_add :
    (AsmLine.add ⟨.position, 10⟩ ⟨.immediate, -1⟩ ⟨.position, 10⟩).words = [1001, 10, -1, 10] := by decide
/-- `OUT rb[-1]` is `204,-1` (R70); `JMP t` is `JT #1, #t`, so `1105,1,0` (R71, program P3). -/
theorem test_asm_out_jmp :
    (AsmLine.out ⟨.relative, -1⟩).words = [204, -1] ∧ (AsmLine.jmp 0).words = [1105, 1, 0] := by decide

/-! ### Opcode-table words -/

theorem test_table_word : decodeTableWord 64 1002 = some (.mul .position .immediate .position) ∧
    decodeTableWord 64 98 = none := by decide
/-- Right after reset: HLT placed at the fetch runs, and `pc` stays. -/
theorem test_withFetchWord : (after (State.reset.withFetchWord 64 99)).eng = .halted ∧
    (after (State.reset.withFetchWord 64 99)).pc = 0 := by decide

/-! ### One step of each instruction (95_test_vectors.md) -/

/-- D-ALU-1. -/
theorem test_add_max : (after (small [1101, 9223372036854775806, 1, 5, 99, 0])).mem.read 5 = 9223372036854775807 ∧
    (after (small [1101, 9223372036854775806, 1, 5, 99, 0])).pc = 4 := by decide
/-- D-ALU-2. -/
theorem test_add_overflow : after (small [1101, 9223372036854775807, 1, 0]) =
    { small [1101, 9223372036854775807, 1, 0] with eng := .faulted, fcause := .overflow, finfo := 9223372036854775808 } := by
  decide
/-- D-ALU-5. -/
theorem test_mul_min : (after (small [1102, 4294967296, -2147483648, 5, 99, 0])).mem.read 5 = -9223372036854775808 := by
  decide
/-- D-ALU-4, with the grown `len` of no account: the sources are immediate. -/
theorem test_mul_overflow : after (small [1102, -1, -9223372036854775808, 0]) =
    { small [1102, -1, -9223372036854775808, 0] with
      eng := .faulted, fcause := .overflow, finfo := 9223372036854775808 } := by decide
/-- D-ALU-11 and D-ALU-12. -/
theorem test_lt_signed : (after (small [1107, -1, 0, 5, 99, 9])).mem.read 5 = 1 ∧
    (after (small [1107, 5, 5, 5, 99, 9])).mem.read 5 = 0 := by decide
/-- D-ALU-14 and D-ALU-15. -/
theorem test_eq : (after (small [1108, 0, 0, 5, 99, 9])).mem.read 5 = 1 ∧
    (after (small [1108, 1, -1, 5, 99, 9])).mem.read 5 = 0 := by decide
/-- D-IO-3: destination mode 1 writes `M[1]`. -/
theorem test_in_immediate : (after { small [103, 7, 99] with inq := [-3] }).mem.read 1 = -3 ∧
    (after { small [103, 7, 99] with inq := [-3] }).inq = [] := by decide
/-- D-IO-2: the popped value is lost. -/
theorem test_in_fault : after { small [203, -1] with inq := [5] } =
    { small [203, -1] with eng := .faulted, fcause := .negativeAddress, finfo := -1 } := by decide
/-- D-IO-4 and D-MEM-5. -/
theorem test_out : (after (small [4, 0, 99])).outq = [4] ∧ (after (large [4, 50, 99])).outq = [0] := by decide
/-- D-MEM-2, its second step. -/
theorem test_out_fault : after { small [109, -5, 204, 0, 99] with pc := 2, rb := -5 } =
    { small [109, -5, 204, 0, 99] with
      pc := 2, rb := -5, eng := .faulted, fcause := .negativeAddress, finfo := -5 } := by decide
/-- D-CTL-1 and D-CTL-2. -/
theorem test_jt : (after (small [1105, 1, 7, 99, 99, 99, 99, 99])).pc = 7 ∧ (after (small [1105, 0, 7, 99])).pc = 3 := by
  decide
/-- D-CTL-7: the target of a jump not taken is read all the same. -/
theorem test_jt_reads_target : (after (small [5, 3, -1, 0])).fcause = .negativeAddress ∧
    (after (small [5, 3, -1, 0])).finfo = -1 := by decide
/-- D-CTL-3 and D-CTL-5. -/
theorem test_jf : (after (small [1106, 0, 4, 0, 99])).pc = 4 ∧ (after (small [1106, -1, 0, 99])).pc = 3 := by decide
/-- D-RB-2, its second step: the operand is read with the old `rb`. -/
theorem test_arb : (after { small [109, 5, 209, -2, 99] with pc := 2, rb := 5 }).rb = 3 := by decide
/-- D-RB-3, its second step. -/
theorem test_arb_overflow :
    (after { small [109, 9223372036854775807, 109, 1] with pc := 2, rb := 9223372036854775807 }).finfo =
      9223372036854775808 ∧
    (after { small [109, 9223372036854775807, 109, 1] with pc := 2, rb := 9223372036854775807 }).rb =
      9223372036854775807 := by decide
/-- D-DEC-7 and D-HLT-1. -/
theorem test_hlt : after (small [22299]) = { small [22299] with eng := .halted } ∧
    after { small [99] with eng := .halted } = { small [99] with eng := .halted } := by decide

/-! ### Memory, faults and suspension -/

/-- D-ALU-16 (destination mode 1 writes `pc + 3`) and D-ALU-17 (an Add that writes its own instruction word). -/
theorem test_self_modification : (after (small [1101, 3, 4, 3, 99])).mem.read 3 = 7 ∧
    (after (small [1101, 3, 4, 0])).mem.read 0 = 7 ∧ (after (small [1101, 3, 4, 0])).pc = 4 := by decide
/-- D-MEM-3 and D-MEM-4, MEM_WORDS = 16. -/
theorem test_address_limit : (after (small [1, 100, 0, 0, 99])).fcause = .addressLimit ∧
    (after (small [1, 100, 0, 0, 99])).finfo = 100 ∧ (after (small [1101, 1, 1, 16, 99])).finfo = 16 := by decide
/-- D-CTL-9, its second step, MEM_WORDS = 16, and D-CTL-8, its second step. -/
theorem test_fetch_outside : (after { small [1105, 1, 16] with pc := 16 }).fcause = .addressLimit ∧
    (after { large [1105, 1, 50] with pc := 50 }).fcause = .unknownOpcode := by decide
/-- D-CTL-6. -/
theorem test_negative_target : after (small [1105, 1, -3]) =
    { small [1105, 1, -3] with eng := .faulted, fcause := .negativeAddress, finfo := -3 } := by decide
/-- D-DEC-5: mode digit 3 in an unused slot. -/
theorem test_invalid_mode : after (small [399]) =
    { small [399] with eng := .faulted, fcause := .invalidMode, finfo := 399 } := by decide
/-- D-IO-1, its first RUN. -/
theorem test_suspend : after (small [3, 0, 4, 0, 99]) = { small [3, 0, 4, 0, 99] with eng := .suspended } := by decide
/-- The codes of `eng` (R24) and FCAUSE (R190). -/
theorem test_codes : Eng.code .faulted = 3 ∧ Eng.code .suspended = 1 ∧ FCause.code .overflow = 5 ∧
    FCause.code .invalidMode = 2 := by decide

/-! ### Host commands -/

/-- D-HOST-1, its POKE and its RESET. -/
theorem test_poke_reset :
    (serve 0 (.poke 1 4) (small [1, 0, 0, 0, 99])).map (fun r => r.2.mem.read 1) = some 4 ∧
    (serve 0 .reset { small [1, 0, 0, 0, 99] with mem := [(1, 4)], eng := .halted, pc := 4 }).map (fun r => r.2) =
      some (small [1, 0, 0, 0, 99]) := by decide
/-- D-HOST-2 and D-HOST-3. -/
theorem test_peek : (serve 0 (.peek 1000) (large [99])).map (fun r => r.1) = some (.word 0) ∧
    serve 0 (.peek (-1)) (small [99]) = some (.refused, small [99]) := by decide
/-- D-HOST-4, after its RUN. -/
theorem test_faulted_commands :
    (serve 0 .status (after (small [1, -1, 0, 0]))).map (fun r => r.1) =
      some (.status .faulted .negativeAddress (-1)) ∧
    (serve 0 .reset (after (small [1, -1, 0, 0]))).map (fun r => r.1) = some .refused := by decide
/-- D-HOST-5, its OUT_READ and OUT_CLEAR. -/
theorem test_out_read_clear :
    (serve 0 .outRead { small [4, 0, 99] with outq := [4] }).map (fun r => r.1) = some (.words [4]) ∧
    (serve 0 .outClear { small [4, 0, 99] with outq := [4] }).map (fun r => r.2.outq) = some [] := by decide
/-- D-HOST-7, and a LOAD longer than MEM_WORDS. -/
theorem test_load_refused : serve 0 (.load []) (small [99]) = some (.refused, small [99]) ∧
    serve 0 (.load (List.replicate 17 1)) (small [99]) = some (.refused, small [99]) := by decide
/-- D-HOST-6, its INSTALL. -/
theorem test_install :
    (serve 0 (.install ⟨[(0, 3), (2, 4), (4, 99)], 5, 0, 0⟩) (small [99])).map (fun r => (r.2.mem.read 2, r.2.orig)) =
      some (4, [99]) := by decide

/-! ### Witnesses: decoding and memory -/

/-- The five clauses of DecodeReadsTheDecimalDigits, at the ends of their ranges. -/
theorem witness_DecodeReadsTheDecimalDigits :
    (-1 : Word).toInt < 0 ∧
    (0 ≤ (0 : Word).toInt ∧ (0 : Word).toInt % 100 ∉ ([1, 2, 3, 4, 5, 6, 7, 8, 9, 99] : List Int)) ∧
    (100001 : Word).toInt = 100001 ∧ (99901 : Word).toInt / 100 % 10 = 9 ∧
    (22299 : Word).toInt / 100 % 10 ≤ 2 ∧ (22299 : Word).toInt / 1000 % 10 ≤ 2 ∧
    (22299 : Word).toInt / 10000 % 10 ≤ 2 := by decide
/-- The clauses of MemReadChecksGrowsAndReads, of MemWriteChecksGrowsAndStores and of PokeAndPeekReachOneWord, at the
ends of their ranges: MEM_WORDS is 16. -/
theorem witness_MemReadChecksGrowsAndReads :
    (small [99]).memWords = 16 ∧ (0 : Int) < (small [99]).memWords ∧ (15 : Int) < (small [99]).memWords ∧
    (-1 : Int) < 0 ∧ ((small [99]).memWords : Int) ≤ 16 := by decide
theorem witness_MemWriteChecksGrowsAndStores :
    (small [99]).Legal 15 ∧ ¬ (small [99]).Legal 16 ∧ ¬ (small [99]).Legal (-1) := by decide
theorem witness_inv_small : (small [4, 0, 99]).Inv :=
  ⟨by decide, by decide, by decide, by decide, by decide, by decide, by decide⟩
/-- Address 3 is the first at or beyond `len`. -/
theorem witness_WordsBeyondTheLengthReadZero : (small [4, 0, 99]).Inv ∧ (small [4, 0, 99]).len ≤ 3 :=
  ⟨witness_inv_small, by decide⟩
theorem witness_MemoryFormIsCanonical :
    Memory.wf (Memory.write [] 3 5) ∧ Memory.wf (Memory.ofWords 0 [0, 0, 0, 5]) ∧
      ∀ a, Memory.read (Memory.write [] 3 5) a = Memory.read (Memory.ofWords 0 [0, 0, 0, 5]) a :=
  ⟨by decide, by decide, fun _ => rfl⟩
/-- Parameter 3 at the last address, its word 15 the last address too, and `rb + w` too. -/
theorem witness_SourceOperandFollowsItsMode :
    let s := { small [1, 0, 0, 15, 1, 0, 0, 0, 0, 0, 0, 0, 0, 0, 0, 15] with pc := 12 }
    s.Legal (s.pc.toInt + (3 : Nat)) ∧ s.Legal (paramWord 3 s).toInt ∧ s.Legal (s.rb.toInt + (paramWord 3 s).toInt) ∧
      (paramWord 3 s).toInt = 15 ∧ paramFault 1 .position (small [1, 16]) = some (.addressLimit, 16) := by decide
theorem witness_DestinationFollowsItsMode :
    let s := { small [1, 0, 0, 15, 1, 0, 0, 0, 0, 0, 0, 0, 0, 0, 0, 15] with pc := 12 }
    s.Legal (s.pc.toInt + (3 : Nat)) ∧ s.Legal (operandAddr 3 .position s) ∧ s.Legal (operandAddr 3 .immediate s) ∧
      s.Legal (operandAddr 3 .relative s) ∧ paramFault 1 .relative (small [203, -1]) = some (.negativeAddress, -1) := by
  decide

/-! ### Witnesses: the instruction rules -/

/-- A state whose parameters 1 and 2 hold these words, read Immediate, and whose parameter 3 designates address 15. -/
def two (a b : Word) : State := small [0, a, b, 15]

/-- A completing ADD at the top of the range, one that overflows by one, and a fault at each parameter: 1 beyond memory, 2
below 0, 3 at MEM_WORDS. -/
theorem witness_AddFollowsItsRule :
    let s := two 9223372036854775806 1
    let o := two 9223372036854775807 1
    (Accessible 1 .immediate s ∧ Accessible 2 .immediate s ∧
      InI64 ((operandWord 1 .immediate s).toInt + (operandWord 2 .immediate s).toInt) ∧ Accessible 3 .position s) ∧
    (Accessible 1 .immediate o ∧ Accessible 2 .immediate o ∧
      ¬ InI64 ((operandWord 1 .immediate o).toInt + (operandWord 2 .immediate o).toInt)) ∧
    paramFault 1 .position (two 16 0) = some (.addressLimit, 16) ∧
    (Accessible 1 .position (two 0 (-1)) ∧ paramFault 2 .position (two 0 (-1)) = some (.negativeAddress, -1)) ∧
    (let t := small [0, 1, 1, 16]
     Accessible 1 .immediate t ∧ Accessible 2 .immediate t ∧
      InI64 ((operandWord 1 .immediate t).toInt + (operandWord 2 .immediate t).toInt) ∧
      paramFault 3 .position t = some (.addressLimit, 16)) := by decide
theorem witness_MulFollowsItsRule :
    let s := two 4294967296 (-2147483648)
    let o := two 4294967296 2147483648
    (Accessible 1 .immediate s ∧ Accessible 2 .immediate s ∧
      InI64 ((operandWord 1 .immediate s).toInt * (operandWord 2 .immediate s).toInt) ∧ Accessible 3 .position s) ∧
    (Accessible 1 .immediate o ∧ Accessible 2 .immediate o ∧
      ¬ InI64 ((operandWord 1 .immediate o).toInt * (operandWord 2 .immediate o).toInt)) ∧
    paramFault 1 .position (two 16 0) = some (.addressLimit, 16) ∧
    (Accessible 1 .position (two 0 (-1)) ∧ paramFault 2 .position (two 0 (-1)) = some (.negativeAddress, -1)) ∧
    (let t := small [0, 1, 1, 16]
     Accessible 1 .immediate t ∧ Accessible 2 .immediate t ∧
      InI64 ((operandWord 1 .immediate t).toInt * (operandWord 2 .immediate t).toInt) ∧
      paramFault 3 .position t = some (.addressLimit, 16)) := by decide
/-- The hypotheses of LessThanFollowsItsRule and of EqualToFollowsItsRule are the same. -/
theorem witness_LessThanFollowsItsRule :
    (Accessible 1 .immediate (two 1 2) ∧ Accessible 2 .relative (two 1 2) ∧ Accessible 3 .position (two 1 2)) ∧
    paramFault 1 .position (two 16 0) = some (.addressLimit, 16) ∧
    (Accessible 1 .position (two 0 (-1)) ∧ paramFault 2 .position (two 0 (-1)) = some (.negativeAddress, -1)) ∧
    (let t := small [0, 1, 1, 16]
     Accessible 1 .immediate t ∧ Accessible 2 .immediate t ∧ paramFault 3 .position t = some (.addressLimit, 16)) := by
  decide
theorem witness_EqualToFollowsItsRule :
    (Accessible 1 .immediate (two 2 2) ∧ Accessible 2 .immediate (two 2 2) ∧ Accessible 3 .immediate (two 2 2)) ∧
    paramFault 1 .relative (two 16 0) = some (.addressLimit, 16) ∧
    (Accessible 1 .position (two 0 (-1)) ∧ paramFault 2 .relative (two 0 (-1)) = some (.negativeAddress, -1)) ∧
    (let t := small [0, 1, 1, 16]
     Accessible 1 .immediate t ∧ Accessible 2 .immediate t ∧ paramFault 3 .position t = some (.addressLimit, 16)) := by
  decide
/-- The four clauses of JumpIfTrueFollowsItsRule: taken to 0, not taken, taken below 0, a faulting operand. -/
theorem witness_JumpIfTrueFollowsItsRule :
    (let s := two (-1) 0
     Accessible 1 .immediate s ∧ Accessible 2 .immediate s ∧ (operandWord 1 .immediate s).toInt ≠ 0 ∧
      0 ≤ (operandWord 2 .immediate s).toInt) ∧
    (operandWord 1 .immediate (two 0 (-1))).toInt = 0 ∧
    (let s := two 1 (-1)
     Accessible 1 .immediate s ∧ Accessible 2 .immediate s ∧ (operandWord 1 .immediate s).toInt ≠ 0 ∧
      (operandWord 2 .immediate s).toInt < 0) ∧
    (Accessible 1 .position (two 0 (-1)) ∧ paramFault 2 .position (two 0 (-1)) = some (.negativeAddress, -1)) ∧
    paramFault 1 .position (two 16 0) = some (.addressLimit, 16) := by decide
theorem witness_JumpIfFalseFollowsItsRule :
    (let s := two 0 0
     Accessible 1 .immediate s ∧ Accessible 2 .immediate s ∧ (operandWord 1 .immediate s).toInt = 0 ∧
      0 ≤ (operandWord 2 .immediate s).toInt) ∧
    (operandWord 1 .immediate (two (-1) (-1))).toInt ≠ 0 ∧
    (let s := two 0 (-1)
     Accessible 1 .immediate s ∧ Accessible 2 .immediate s ∧ (operandWord 1 .immediate s).toInt = 0 ∧
      (operandWord 2 .immediate s).toInt < 0) ∧
    (Accessible 1 .position (two 0 (-1)) ∧ paramFault 2 .position (two 0 (-1)) = some (.negativeAddress, -1)) ∧
    paramFault 1 .position (two 16 0) = some (.addressLimit, 16) := by decide
/-- The three outcomes of an Input: `inq` empty, a destination at the last address, one below 0. -/
theorem witness_InputFollowsItsRule :
    (small [3, 15]).inq = [] ∧
    (let s := { small [3, 15] with inq := [5] }
     s.inq = 5 :: [] ∧ Accessible 1 .position s) ∧
    (let s := { small [203, -1] with inq := [5] }
     s.inq = 5 :: [] ∧ paramFault 1 .relative s = some (.negativeAddress, -1)) := by decide
theorem witness_OutputFollowsItsRule :
    Accessible 1 .position (small [4, 15]) ∧ paramFault 1 .position (small [4, 16]) = some (.addressLimit, 16) := by decide
theorem witness_RelativeBaseOffsetFollowsItsRule :
    (let s := { small [109, 1] with rb := 9223372036854775806 }
     Accessible 1 .immediate s ∧ InI64 (s.rb.toInt + (operandWord 1 .immediate s).toInt)) ∧
    (let s := { small [109, 1] with rb := 9223372036854775807 }
     Accessible 1 .immediate s ∧ ¬ InI64 (s.rb.toInt + (operandWord 1 .immediate s).toInt)) ∧
    paramFault 1 .position (small [9, -1]) = some (.negativeAddress, -1) := by decide

/-- Each of the four completes, and an ADD overflows: the hypothesis of FrameOfArithmeticAndComparison. -/
theorem witness_FrameOfArithmeticAndComparison :
    (∃ t, exec (.add .immediate .immediate .position) (two 1 2) = .next t ∧ t.eng = .running) ∧
    (∃ t, exec (.mul .immediate .immediate .position) (two 1 2) = .next t ∧ t.eng = .running) ∧
    (∃ t, exec (.lt .immediate .immediate .position) (two 1 2) = .next t ∧ t.eng = .running) ∧
    (∃ t, exec (.eq .immediate .immediate .position) (two 1 2) = .next t ∧ t.eng = .running) ∧
    (∃ t, exec (.add .immediate .immediate .position) (two 9223372036854775807 1) = .next t ∧ t.eng = .faulted) :=
  ⟨⟨_, rfl, by decide⟩, ⟨_, rfl, by decide⟩, ⟨_, rfl, by decide⟩, ⟨_, rfl, by decide⟩, ⟨_, rfl, by decide⟩⟩
/-- The three outcomes of an Input, each a next state. -/
theorem witness_FrameOfInput :
    (∃ t, exec (.inp .position .position .position) (small [3, 15]) = .next t ∧ t.eng = .suspended) ∧
    (∃ t, exec (.inp .position .position .position) { small [3, 15] with inq := [5] } = .next t ∧ t.eng = .running) ∧
    (∃ t, exec (.inp .position .position .position) { small [3, 16] with inq := [5] } = .next t ∧ t.eng = .faulted) :=
  ⟨⟨_, rfl, by decide⟩, ⟨_, rfl, by decide⟩, ⟨_, rfl, by decide⟩⟩
theorem witness_FrameOfInstructionsThatStoreNothing :
    (∃ t, exec (.out .position .position .position) (small [4, 15]) = .next t ∧ t.eng = .running) ∧
    (∃ t, exec (.jt .immediate .immediate .position) (two 1 7) = .next t ∧ t.pc = 7) ∧
    (∃ t, exec (.jf .immediate .immediate .position) (two 1 7) = .next t ∧ t.pc = 3) ∧
    (∃ t, exec (.arb .immediate .position .position) (small [109, 5]) = .next t ∧ t.rb = 5) ∧
    (∃ t, exec (.hlt .position .position .position) (small [99]) = .next t ∧ t.eng = .halted) ∧
    (∃ t, exec (.out .position .position .position) (small [4, 16]) = .next t ∧ t.eng = .faulted) :=
  ⟨⟨_, rfl, by decide⟩, ⟨_, rfl, by decide⟩, ⟨_, rfl, by decide⟩, ⟨_, rfl, by decide⟩, ⟨_, rfl, by decide⟩,
    ⟨_, rfl, by decide⟩⟩

/-! ### Witnesses: faults and steps -/

/-- A step with a fault at each place of the list: fetch, decode, parameter 1, range check, destination, jump target; and
one with none. -/
theorem witness_FaultsComeInPriorityOrder :
    (small [99]).Awake ∧
    stepFault { small [99] with pc := 16 } = some (.addressLimit, 16) ∧
    stepFault (small [98]) = some (.unknownOpcode, 98) ∧
    stepFault (small [1, -1, 16, 16]) = some (.negativeAddress, -1) ∧
    stepFault (small [1101, 9223372036854775807, 1, 16]) = some (.overflow, 9223372036854775808) ∧
    stepFault (small [1101, 1, 1, 16]) = some (.addressLimit, 16) ∧
    stepFault (small [1105, 1, -3]) = some (.negativeAddress, -3) ∧
    stepFault (small [99]) = none := by decide
/-- A suspended core whose Input now faults. -/
theorem witness_FaultEntryIsPrecise :
    let s := { small [203, -1] with inq := [5], eng := .suspended }
    s.Awake ∧ ∃ t, step s = .next t ∧ t.eng = .faulted := ⟨by decide, _, rfl, by decide⟩
/-- Words at the ends of each clause: -1, 0, 10, 98 are unknown; 100001, 301, 3001, 30001 have an invalid mode; 1
and 22299 are the least and the greatest legal word. -/
theorem witness_IllegalWordsStopTheCore :
    (small [-1]).Awake ∧ (small [-1]).Legal (small [-1]).pc.toInt ∧
    (fetchWord (small [-1])).toInt < 0 ∧ (fetchWord (small [])).toInt % 100 = 0 ∧
    (fetchWord (small [10])).toInt % 100 = 10 ∧ (fetchWord (small [98])).toInt % 100 = 98 ∧
    100000 ≤ (fetchWord (small [100001])).toInt ∧ (fetchWord (small [301])).toInt / 100 % 10 = 3 ∧
    (fetchWord (small [3001])).toInt / 1000 % 10 = 3 ∧ (fetchWord (small [30001])).toInt / 10000 % 10 = 3 ∧
    (fetchWord (small [30001])).toInt % 100 ∈ ([1, 2, 3, 4, 5, 6, 7, 8, 9, 99] : List Int) ∧
    (fetchWord (small [22299])).toInt = 22299 ∧ (fetchWord (small [1])).toInt = 1 := by decide
/-- `pc` at MEM_WORDS, and at `len`. -/
theorem witness_FetchOutsideTheProgramFaults :
    { small [4, 0, 99] with pc := 16 }.Inv ∧ { small [4, 0, 99] with pc := 16 }.Awake ∧
    (({ small [4, 0, 99] with pc := 16 }.memWords : Int) ≤ 16) ∧
    { small [4, 0, 99] with pc := 3 }.Inv ∧ (({ small [4, 0, 99] with pc := 3 }.len : Int) ≤ 3) ∧
    ((3 : Int) < { small [4, 0, 99] with pc := 3 }.memWords) :=
  ⟨⟨by decide, by decide, by decide, by decide, by decide, by decide, by decide⟩, by decide, by decide,
    ⟨by decide, by decide, by decide, by decide, by decide, by decide, by decide⟩, by decide, by decide⟩
/-- At the last address of the machine, on a suspended core. -/
theorem witness_StepRunsTheDecodedInstruction :
    let s := { small (List.replicate 15 0 ++ [99]) with pc := 15, eng := .suspended }
    s.Awake ∧ 0 ≤ s.pc.toInt ∧ s.pc.toInt < s.memWords ∧
      decode (s.mem.read s.pc.toInt.toNat) = .instr (.hlt .position .position .position) := by decide
theorem witness_HaltedAndFaultedCoresStandStill :
    { small [99] with eng := .halted }.eng = .halted ∧ { small [99] with eng := .faulted }.eng = .faulted := by decide
/-- Each of the four states after a step. -/
theorem witness_StepFollowsTheEngineTable :
    (∃ t, step (small [3, 0]) = .next t ∧ t.eng = .suspended) ∧ (∃ t, step (small [99]) = .next t ∧ t.eng = .halted) ∧
    (∃ t, step (small [98]) = .next t ∧ t.eng = .faulted) ∧ (∃ t, step (small [4, 0]) = .next t ∧ t.eng = .running) :=
  ⟨⟨_, rfl, by decide⟩, ⟨_, rfl, by decide⟩, ⟨_, rfl, by decide⟩, ⟨_, rfl, by decide⟩⟩
theorem witness_OnlyRelativeBaseOffsetWritesTheBase :
    (∃ t, step (small [109, -5, 99]) = .next t ∧ t.rb ≠ (small [109, -5, 99]).rb) ∧
    ∃ t, serve 0 .reset { small [99] with rb := 7 } = some (.ok, t) ∧ t.rb ≠ 7 :=
  ⟨⟨_, rfl, by decide⟩, _, rfl, by decide⟩
/-- An advance, a taken jump, and a step that leaves RUNNING. -/
theorem witness_ProgramCounterAdvancesByTheWidth :
    (small [4, 0]).Awake ∧ (∃ t, step (small [4, 0]) = .next t ∧ t.eng = .running ∧ t.pc = 2) ∧
    (∃ t, step (small [1105, 1, 7]) = .next t ∧ t.eng = .running ∧ t.pc = 7) ∧
    (∃ t, step (small [99]) = .next t ∧ t.eng ≠ .running) :=
  ⟨by decide, ⟨_, rfl, by decide, by decide⟩, ⟨_, rfl, by decide, by decide⟩, ⟨_, rfl, by decide⟩⟩
theorem witness_QueuesKeepFifoOrder :
    (∃ t, step { small [3, 0] with inq := [1, 2] } = .next t ∧ t.inq = [2]) ∧
    (∃ t, step { small [4, 0] with outq := [7] } = .next t ∧ t.outq = [7, 4]) := ⟨⟨_, rfl, by decide⟩, ⟨_, rfl, by decide⟩⟩
theorem witness_NoStepShrinksMemoryOrWritesTheOriginal :
    (small [1101, 3, 4, 9]).CoversOriginal ∧ (∃ t, step (small [1101, 3, 4, 9]) = .next t ∧ t.len = 10) ∧
    ∃ t, serve 0 (.load [5]) (small [99]) = some (.ok, t) ∧ t.orig ≠ (small [99]).orig :=
  ⟨by decide, ⟨_, rfl, by decide⟩, _, rfl, by decide⟩
/-- D-MEM-7: the write of 99 at 4, which is where the next fetch reads. -/
theorem witness_StoredWordIsFetchedAtOnce :
    let s := { small [1101, 98, 1, 4] with pc := 4 }
    ∃ t, memWrite 4 99 s = .ok () t ∧ t.pc.toInt = 4 ∧ t.Awake ∧
      decode 99 = .instr (.hlt .position .position .position) := ⟨_, rfl, by decide, by decide, by decide⟩

/-! ### Witnesses: invariants and the host port -/

/-- 16 words is the longest program a machine of 16 words takes. -/
theorem witness_ResetAndLoadMeetTheInvariant :
    (List.replicate 16 (1 : Word)).length ≤ (⟨15, by decide⟩ : Fin Config.memWordsMax).val + 1 := by decide
theorem witness_EveryStepKeepsTheInvariant : (small [4, 0, 99]).Inv ∧ ∃ t, step (small [4, 0, 99]) = .next t ∧ t.pc = 2 :=
  ⟨witness_inv_small, _, rfl, by decide⟩
/-- An INSTALL of a snapshot of an instance of the same machine. -/
theorem witness_EveryCommandKeepsTheInvariant :
    let snap : Snapshot := ⟨(small [4, 0, 99]).mem, 3, 0, 0⟩
    (small [4, 0, 99]).Inv ∧ snap.FromSameMachine (small [4, 0, 99]).lastAddr ∧
      ∃ t, serve 0 (.install snap) (small [4, 0, 99]) = some (.ok, t) :=
  ⟨witness_inv_small, ⟨small [4, 0, 99], witness_inv_small, rfl, rfl⟩, _, rfl⟩
/-- 16 words are taken; none and 17 are refused. -/
theorem witness_LoadBuildsTheLoadState :
    List.replicate 16 (1 : Word) ≠ [] ∧ (List.replicate 16 (1 : Word)).length ≤ (small [99]).memWords ∧
      (small [99]).memWords < (List.replicate 17 (1 : Word)).length := by decide
/-- The two clauses of ResetRestoresTheOriginal, of InstallOverwritesWithTheCapturedState and of
QueueAndStatusCommandsFollowTheirRules. -/
theorem witness_ResetRestoresTheOriginal : (small [99]).eng ≠ .faulted ∧ (after (small [98])).eng = .faulted := by decide
theorem witness_PokeAndPeekReachOneWord :
    (small [99]).eng ≠ .faulted ∧ (15 : Int) < (small [99]).memWords ∧ ((small [99]).memWords : Int) ≤ 16 ∧
      (after (small [98])).eng = .faulted := by decide
theorem witness_QueueAndStatusCommandsFollowTheirRules :
    (small [99]).eng ≠ .faulted ∧ (after (small [98])).eng = .faulted := by decide
theorem witness_InstallOverwritesWithTheCapturedState :
    { small [99] with eng := .suspended }.eng ≠ .faulted ∧ (after (small [98])).eng = .faulted := by decide
/-- The clauses: a refused ENQ, RUN, PEEK, LOAD, each answered in FAULTED. -/
theorem witness_FaultedCoreServesOnlyReads :
    let s := after (small [98])
    s.eng = .faulted ∧ (∃ r t, serve 0 (.enq 5) s = some (r, t)) ∧ (∃ r t, serve 0 .run s = some (r, t)) ∧
      (∃ r t, serve 0 (.peek 0) s = some (r, t)) ∧ ∃ t, serve 0 (.load [99]) s = some (.ok, t) :=
  ⟨by decide, ⟨_, _, rfl⟩, ⟨_, _, rfl⟩, ⟨_, _, rfl⟩, _, rfl⟩
theorem witness_RefusedCommandsChangeNothing : serve 0 (.peek (-1)) (small [99]) = some (.refused, small [99]) := by decide
/-- A LOAD, a RESET of a halted core, an INSTALL on a suspended one. -/
theorem witness_CommandsFollowTheEngineTable :
    (∃ t, serve 0 (.load [99]) (after (small [98])) = some (.ok, t) ∧ t.eng ≠ (after (small [98])).eng) ∧
    (∃ t, serve 0 .reset { small [99] with eng := .halted } = some (.ok, t) ∧ t.eng = .running) ∧
    (∃ t, serve 0 (.install ⟨[], 0, 0, 0⟩) { small [99] with eng := .suspended } = some (.ok, t) ∧ t.eng = .running) :=
  ⟨⟨_, rfl, by decide⟩, ⟨_, rfl, by decide⟩, ⟨_, rfl, by decide⟩⟩
/-- One STEP, and a RUN with fuel for it. -/
theorem witness_RunEqualsRepeatedSteps :
    (∃ rs t, serveAll 0 (List.replicate 1 .step) (small [99]) = some (rs, t) ∧ t.eng ≠ .running) ∧
      ∃ r t, serve 1 .run (small [99]) = some (r, t) := ⟨⟨_, _, rfl, by decide⟩, _, _, rfl⟩
/-- `3,0,99`: suspends, is given 42, halts. -/
theorem witness_SuspendedRunResumesAsIfNeverSuspended :
    ∃ r t q u, serve 1 .run (small [3, 0, 99]) = some (r, t) ∧ t.eng = .suspended ∧
      serve 2 .run { t with inq := t.inq ++ [42] } = some (q, u) := ⟨_, _, _, _, rfl, by decide, rfl⟩
theorem witness_SuspendingAgainChangesNothing :
    ∃ t, step (small [3, 0]) = .next t ∧ t.eng = .suspended ∧ (small [3, 0]).Awake := ⟨_, rfl, by decide, by decide⟩
/-- Two INSTALLs and two states that differ in `len` alone. -/
theorem witness_LengthIsUnobservable :
    Command.forgetLen (.install ⟨[], 0, 0, 0⟩) = Command.forgetLen (.install ⟨[], 5, 0, 0⟩) ∧
      (small [99]).forgetLen = { small [99] with len := 7 }.forgetLen := by decide
theorem witness_InstancesAreIndependent :
    ∃ ds, Cores.serve 0 1 (.enq 5) [small [99], small [3, 0]] = some (.ok, ds) := ⟨_, rfl⟩

/-! ### The port as the host sees it -/

/-- Two instances, the first suspended, with no snapshot taken. -/
def twoCores : Port := { cores := [{ small [3, 0, 4, 0, 99] with eng := .suspended }, small [99]], held := [] }

/-- The same with the snapshot CAPTURE takes from the first. -/
def twoCoresTaken : Port := { twoCores with held := [⟨(small [3, 0, 4, 0, 99]).mem, 5, 0, 0⟩] }

/-- D-HOST-6: A's CAPTURE, and B's INSTALL of what it took. -/
theorem test_port_capture : Port.serve 0 0 .capture twoCores = some (.snapshot ⟨0⟩, twoCoresTaken) := by decide
theorem test_port_install :
    (Port.serve 0 1 (.install ⟨0⟩) twoCoresTaken).map (fun r => (r.2.cores.map fun s => (s.mem.read 2, s.orig))) =
      some [(4, [3, 0, 4, 0, 99]), (4, [99])] := by decide

theorem witness_CaptureAnswersAnOpaqueToken : twoCores.cores[1]? = some (small [99]) := by decide
/-- A token that stands for a snapshot, one that stands for none, and a faulted instance. -/
theorem witness_OnlyCapturedSnapshotsAreInstalled :
    twoCoresTaken.cores[1]? = some (small [99]) ∧ (small [99]).eng ≠ .faulted ∧
    twoCoresTaken.held[(⟨0⟩ : Token).number]? = some ⟨(small [3, 0, 4, 0, 99]).mem, 5, 0, 0⟩ ∧
    twoCoresTaken.held[(⟨1⟩ : Token).number]? = none ∧ (after (small [98])).eng = .faulted ∧
    (∃ r q, Port.serve 0 0 .capture twoCoresTaken = some (r, q)) ∧ 0 < twoCoresTaken.held.length :=
  ⟨by decide, by decide, by decide, by decide, by decide, ⟨_, _, rfl⟩, by decide⟩
/-- Ports that differ in `len` in an instance and in a snapshot. -/
theorem witness_RepliesShowNothingOfTheLength :
    twoCoresTaken.forgetLen =
      Port.forgetLen { cores := [{ small [3, 0, 4, 0, 99] with eng := .suspended, len := 9 }, small [99]],
                       held := [⟨(small [3, 0, 4, 0, 99]).mem, 7, 0, 0⟩] } := by decide
/-- One instance, one snapshot taken from it, and an INSTALL of that snapshot. -/
theorem witness_EveryHostCommandKeepsThePortInvariant :
    let p : Port := { cores := [small [4, 0, 99]], held := [⟨(small [4, 0, 99]).mem, 3, 0, 0⟩] }
    p.Inv ⟨15, by decide⟩ ∧ ∃ q, Port.serve 0 0 (.install ⟨0⟩) p = some (.ok, q) :=
  ⟨⟨by simpa using ⟨witness_inv_small, rfl⟩, by simpa using ⟨small [4, 0, 99], witness_inv_small, rfl, rfl⟩⟩, _, rfl⟩

end Sys2Proof.Tests
end

section
/-! PROOFS. A step: it keeps the invariant (10_state.md R22, R25, R26, R29), and the registers it may write. -/

namespace Sys2Proof.Machine

/-! ### The invariant, under what a step is made of -/

/-- A fault that is recorded is one: its cause is not NONE (60_exceptions.md R190). -/
def NamesCause (o : Option (FCause × Int)) : Prop := ∀ f ∈ o, f.1 ≠ .none

theorem NamesCause.of_none : NamesCause none := by simp [NamesCause]

theorem NamesCause.of_some {c : FCause} {x : Int} (h : c ≠ .none) : NamesCause (some (c, x)) := by simpa [NamesCause]

theorem NamesCause.or {o p : Option (FCause × Int)} (ho : NamesCause o) (hp : NamesCause p) : NamesCause (o.or p) := by
  cases o with
  | none => exact hp
  | some f => exact ho

theorem addrFault_namesCause (s : State) (a : Int) : NamesCause (addrFault s a) := by
  unfold addrFault
  split
  · exact .of_some (by decide)
  · split
    · exact .of_some (by decide)
    · exact .of_none

theorem paramFault_namesCause (k : Nat) (m : Mode) (s : State) : NamesCause (paramFault k m s) :=
  (addrFault_namesCause s _).or (addrFault_namesCause s _)

theorem rangeFault_namesCause (r : Int) : NamesCause (rangeFault r) := by
  unfold rangeFault
  split
  · exact .of_none
  · exact .of_some (by decide)

theorem targetFault_namesCause (p : Prop) [Decidable p] (t : Int) : NamesCause (targetFault p t) := by
  unfold targetFault
  split
  · exact .of_some (by decide)
  · exact .of_none

theorem firstFault_namesCause (i : Instr) (s : State) : NamesCause (firstFault i s) := by
  have param (k : Nat) (m : Mode) := paramFault_namesCause k m s
  cases i with
  | add m1 m2 m3 | mul m1 m2 m3 => exact ((param 1 m1).or (param 2 m2)).or ((rangeFault_namesCause _).or (param 3 m3))
  | lt m1 m2 m3 | eq m1 m2 m3 => exact ((param 1 m1).or (param 2 m2)).or (param 3 m3)
  | jt m1 m2 m3 | jf m1 m2 m3 => exact ((param 1 m1).or (param 2 m2)).or (targetFault_namesCause _ _)
  | inp m1 m2 m3 =>
    unfold firstFault
    dsimp only
    split
    · exact .of_none
    · exact param 1 m1
  | out m1 m2 m3 => exact param 1 m1
  | arb m1 m2 m3 => exact (param 1 m1).or (rangeFault_namesCause _)
  | hlt m1 m2 m3 => exact .of_none

theorem stepFault_namesCause (s : State) : NamesCause (stepFault s) := by
  refine (addrFault_namesCause s _).or ?_
  split
  · exact .of_some (by decide)
  · exact .of_some (by decide)
  · exact firstFault_namesCause _ s

/-! #### Under each operation -/

theorem State.Inv.withLen {s : State} (h : s.Inv) {n : Nat} (hn : s.len ≤ n) (hb : n ≤ s.memWords) : (s.withLen n).Inv :=
  { h with memBelowLen := fun c hc => (h.memBelowLen c hc).trans_le hn, lenBound := hb }

theorem State.Inv.grow {s : State} (h : s.Inv) {a : Int} (ha : s.Legal a) : (s.grow a.toNat).Inv :=
  h.withLen (Nat.le_max_left _ _) (Nat.max_le.mpr ⟨h.lenBound, by have := ha.1; have := ha.2; omega⟩)

theorem State.Inv.store {s : State} (h : s.Inv) {a : Nat} (ha : a < s.len) (v : Word) : (s.store a v).Inv :=
  { h with
    memWf := Memory.wf_write h.memWf a v
    memBelowLen := fun c hc => by
      rcases Memory.mem_write hc with rfl | hc
      · exact ha
      · exact h.memBelowLen c hc }

theorem State.Inv.setInput {s : State} (h : s.Inv) (q : List Word) : (s.setInput q).Inv := { h with }

theorem State.Inv.setEng {s : State} (h : s.Inv) (hs : s.eng ≠ .faulted) {e : Eng} (he : e ≠ .faulted) :
    (s.setEng e).Inv :=
  { h with causeIff := ⟨fun _ => he, fun _ => h.causeIff.mpr hs⟩ }

theorem State.Inv.raise {s : State} (h : s.Inv) {c : FCause} (hc : c ≠ .none) (x : Int) : (s.raise c x).Inv :=
  { h with causeIff := ⟨fun hn => absurd hn hc, fun hn => absurd rfl hn⟩, infoZero := fun hn => absurd hn hc }

/-- Fault entry keeps the invariant: it is a raise after growth within the machine's memory (60_exceptions.md R196). -/
theorem State.Inv.of_faultEntered {s t : State} (h : s.Inv) {c : FCause} {x : Int} (hc : c ≠ .none)
    (ht : FaultEntered c x s t) : t.Inv := by
  obtain ⟨heq, hle, hmax⟩ := ht
  rw [heq]
  exact (h.withLen hle (hmax.trans_eq (Nat.max_eq_right h.lenBound))).raise hc x

theorem State.Awake.not_faulted {s : State} (h : s.Awake) : s.eng ≠ .faulted := by
  rcases h with h | h <;> simp [h]

/-- A fetch keeps the invariant (40_engine.md R83). -/
theorem State.Inv.fetched {s : State} (h : s.Inv) (ha : s.Awake) (hpc : s.Legal s.pc.toInt) : s.fetched.Inv :=
  (h.setEng ha.not_faulted (e := .running) (by decide)).grow (s := s.setEng .running) hpc

/-- The effect of an instruction keeps the invariant: `pc` advances or is a target that is not negative (10_state.md R22),
and a word is stored below the new `len` alone (20_memory.md R42). -/
theorem State.Inv.of_effect {i : Instr} {s : State} (h : s.Inv) (he : s.eng = .running) (hf : firstFault i s = none) :
    (effect i s).Inv := by
  obtain ⟨horig, hlast, hcause, hinfo, hlen⟩ := effect_constants i s
  have hsize : (effect i s).memWords = s.memWords := congrArg (fun a => a.val + 1) hlast
  have hnone : s.fcause = .none := h.causeIff.mpr (by simp [he])
  have hmem : (effect i s).mem.wf ∧ ∀ c ∈ (effect i s).mem, c.1 < (effect i s).len := by
    have kept : ∀ c ∈ s.mem, c.1 < (effect i s).len := fun c hc => (h.memBelowLen c hc).trans_le hlen
    rcases effect_mem i s with hm | ⟨a, v, hm, ha⟩
    · rw [hm]
      exact ⟨h.memWf, kept⟩
    · rw [hm]
      refine ⟨Memory.wf_write h.memWf a v, fun c hc => ?_⟩
      rcases Memory.mem_write hc with rfl | hc
      · exact ha
      · exact kept c hc
  refine ⟨?pc, hmem.1, hmem.2, ?bound, ?orig, ?cause, ?info⟩
  case pc =>
    have := h.pcNonneg
    rcases effect_pc hf with ⟨hpc, _⟩ | ⟨_, _, _, _, hpc, htarget⟩ | hpc
    · rwa [hpc]
    · rwa [hpc]
    · omega
  case bound => exact hsize ▸ effect_len_le hf h.lenBound
  case orig =>
    rw [hsize, State.olen, horig]
    exact h.origFits
  case cause => exact ⟨fun _ => (effect_eng i he).2.2, fun _ => hcause.trans hnone⟩
  case info => exact fun _ => hinfo.trans (h.infoZero hnone)

/-- Every step keeps the invariant. -/
theorem State.Inv.of_step {s t : State} (h : s.Inv) (ht : step s = .next t) : t.Inv := by
  by_cases ha : s.Awake
  · have cause {c : FCause} {x : Int} (hc : stepFault s = some (c, x)) : c ≠ .none := stepFault_namesCause s _ hc
    rcases step_cases ha ht with ⟨i, hi, _, hf, rfl⟩ | ⟨i, c, x, _, hc, _, he⟩ | ⟨c, x, _, hc, he⟩
    · exact (h.fetched ha hi.1).of_effect rfl ((firstFault_fetched i s).trans hf)
    · exact (h.setInput _).of_faultEntered (cause hc) he
    · exact h.of_faultEntered (cause hc) he
  · rw [step_of_not_awake ha] at ht
    cases ht
    exact h

/-- Settles O38: fault entry, the fetch and the effect of the fetched instruction each keep the invariant. -/
theorem everyStepKeepsTheInvariant : Obligations.EveryStepKeepsTheInvariant := fun _ _ h ht => h.of_step ht

/-! ### The registers a step may write -/

/-- What a step may write: never the original or the machine's size, `len` only upwards (10_state.md R30, 20_memory.md
R42), and `rb` only by a RelativeBaseOffset (10_state.md R23). -/
theorem step_frame {s t : State} (h : step s = .next t) :
    t.orig = s.orig ∧ t.lastAddr = s.lastAddr ∧ s.len ≤ t.len ∧ (t.rb = s.rb ∨ ∃ m1 m2 m3, Fetches s (.arb m1 m2 m3)) := by
  by_cases ha : s.Awake
  · rcases step_cases ha h with ⟨i, hi, _, _, rfl⟩ | ⟨_, _, _, _, _, _, heq, hle, _⟩ | ⟨_, _, _, _, heq, hle, _⟩
    · obtain ⟨horig, hlast, _, _, hlen⟩ := effect_constants i s.fetched
      refine ⟨horig, hlast, (len_le_lenAfter [s.pc.toInt] s.len).trans hlen, ?_⟩
      by_cases hb : ∃ m1 m2 m3, i = .arb m1 m2 m3
      · obtain ⟨m1, m2, m3, rfl⟩ := hb
        exact .inr ⟨m1, m2, m3, hi⟩
      · exact .inl (effect_rb fun m1 m2 m3 hm => hb ⟨m1, m2, m3, hm⟩)
    · rw [heq]
      exact ⟨rfl, rfl, hle, .inl rfl⟩
    · rw [heq]
      exact ⟨rfl, rfl, hle, .inl rfl⟩
  · rw [step_of_not_awake ha] at h
    cases h
    exact ⟨rfl, rfl, Nat.le_refl _, .inl rfl⟩

end Sys2Proof.Machine
end

section
/-! PROOFS. A command: what each can do to a core, said once, so that the frames and the invariants of a core and of
the port follow case by case. -/

namespace Sys2Proof.Machine

/-! ### Everything a command can do to a core -/

/-- `t` is reached from `s` by some number of steps. -/
def StepsTo : State → State → Prop := Relation.ReflTransGen fun s t => step s = .next t

/-- The state a command leaves, command by command, a refused one leaving the state as it was (45_host_port.md R161 to
R174). RUN is its sequence of steps. -/
inductive Served (s : State) : Command → State → Prop where
  | unchanged (c : Command) : Served s c s
  | load {ws : List Word} (h : ws.length ≤ s.memWords) : Served s (.load ws) (State.loaded ws s.lastAddr)
  | poke {a : Int} (v : Word) (h : s.Legal a) : Served s (.poke a v) ((s.grow a.toNat).store a.toNat v)
  | peek {a : Int} (h : s.Legal a) : Served s (.peek a) (s.grow a.toNat)
  | enq (v : Word) : Served s (.enq v) (s.setInput (s.inq ++ [v]))
  | run {t : State} (h : StepsTo s t) : Served s .run t
  | step {t : State} (h : step s = .next t) : Served s .step t
  | outClear : Served s .outClear { s with outq := [] }
  | reset (h : s.eng ≠ .faulted) : Served s .reset
      { s with mem := Memory.ofWords 0 s.orig, len := s.olen, pc := 0, rb := 0, outq := [], eng := .running }
  | install (snap : Snapshot) (h : s.eng ≠ .faulted) : Served s (.install snap)
      { s with mem := snap.mem, len := snap.len, pc := snap.pc, rb := snap.rb,
               eng := if s.eng = .suspended then .running else s.eng }

theorem stepsTo_of_runLoop {n : Nat} {s t : State} (h : runLoop n s = some t) : StepsTo s t := by
  induction n generalizing s with
  | zero =>
    unfold runLoop at h
    split at h
    · cases h
    · cases h
      exact .refl
  | succ n ih =>
    by_cases he : s.eng = .running
    · obtain ⟨u, hu⟩ := step_next s
      rw [runLoop_step he hu] at h
      exact .head hu (ih h)
    · rw [runLoop_stop he] at h
      cases h
      exact .refl

/-- A RUN that returns has made steps, the first of them from the core as it stood before it woke (40_engine.md R80). -/
theorem stepsTo_of_hostRun {n : Nat} {s t : State} {r : Reply} (h : hostRun n s = some (r, t)) : StepsTo s t := by
  by_cases ha : s.Awake
  · rw [hostRun_of_awake ha] at h
    obtain ⟨u, hu, h⟩ := Option.map_eq_some_iff.mp h
    cases h
    cases n with
    | zero => simp [runLoop] at hu
    | succ n =>
      obtain ⟨v, hv⟩ := step_next (s.setEng .running)
      rw [runLoop_step rfl hv] at hu
      exact .head (step_setRunning ha ▸ hv) (stepsTo_of_runLoop hu)
  · rw [hostRun_of_not_awake ha] at h
    cases h
    exact .refl

theorem served_of_ite {s t : State} {c : Command} {r : Reply} {p : Prop} [Decidable p] {a b : Reply × State}
    (ha : p → Served s c a.2) (hb : ¬ p → Served s c b.2) (h : some (if p then a else b) = some (r, t)) :
    Served s c t := by
  split at h
  · next hp => cases h; exact ha hp
  · next hp => cases h; exact hb hp

/-- What each command leaves is what its rule says. -/
theorem served_of_serve {fuel : Nat} {c : Command} {s t : State} {r : Reply} (h : serve fuel c s = some (r, t)) :
    Served s c t := by
  have refused : Served s c s := .unchanged c
  cases c with
  | run => exact .run (stepsTo_of_hostRun h)
  | step =>
    obtain ⟨u, hu⟩ := step_next s
    simp only [serve, hostStep_eq hu] at h
    cases h
    exact .step hu
  | load ws => exact served_of_ite (fun _ => refused) (fun hn => .load (by omega)) h
  | poke a v => exact served_of_ite (fun _ => refused) (fun hn => .poke v (not_not.mp (not_or.mp hn).2)) h
  | peek a => exact served_of_ite (fun hl => .peek hl) (fun _ => refused) h
  | enq v => exact served_of_ite (fun _ => refused) (fun _ => .enq v) h
  | outClear => exact served_of_ite (fun _ => refused) (fun _ => .outClear) h
  | reset => exact served_of_ite (fun _ => refused) (fun hn => .reset hn) h
  | install snap => exact served_of_ite (fun _ => refused) (fun hn => .install snap hn) h
  | outRead | status | capture => cases h; exact .unchanged _

theorem StepsTo.frame {s t : State} (h : StepsTo s t) : t.orig = s.orig ∧ t.lastAddr = s.lastAddr := by
  induction h with
  | refl => exact ⟨rfl, rfl⟩
  | tail _ hu ih =>
    obtain ⟨horig, hlast, _⟩ := step_frame hu
    exact ⟨horig.trans ih.1, hlast.trans ih.2⟩

/-- No command changes the machine's size (10_state.md R33), and only LOAD the original (R30). -/
theorem Served.frame {s t : State} {c : Command} (h : Served s c t) :
    t.lastAddr = s.lastAddr ∧ (t.orig = s.orig ∨ ∃ ws, c = .load ws) := by
  cases h with
  | run h => exact ⟨h.frame.2, .inl h.frame.1⟩
  | step h => exact ⟨(step_frame h).2.1, .inl (step_frame h).1⟩
  | load h => exact ⟨rfl, .inr ⟨_, rfl⟩⟩
  | _ => exact ⟨rfl, .inl rfl⟩

/-- Of the commands that run no step, only LOAD, RESET and INSTALL write `rb` (10_state.md R23). -/
theorem Served.rb {s t : State} {c : Command} (h : Served s c t) :
    c = .run ∨ c = .step ∨ t.rb = s.rb ∨ (∃ ws, c = .load ws) ∨ c = .reset ∨ ∃ snap, c = .install snap := by
  cases h <;> simp

/-- Settles O35: a step's frame, and that of each command. -/
theorem noStepShrinksMemoryOrWritesTheOriginal : Obligations.NoStepShrinksMemoryOrWritesTheOriginal := by
  refine ⟨fun s t h => ?_, fun fuel c s t r h => ?_⟩
  · obtain ⟨horig, hlast, hlen, _⟩ := step_frame h
    refine ⟨horig, hlast, hlen, fun hc => ?_⟩
    rw [State.CoversOriginal, State.olen, horig]
    exact hc.trans hlen
  · obtain ⟨hlast, horig⟩ := (served_of_serve h).frame
    exact ⟨hlast, fun hne => horig.resolve_left hne⟩

/-- Settles O32: a step's frame, and the commands one by one. -/
theorem onlyRelativeBaseOffsetWritesTheBase : Obligations.OnlyRelativeBaseOffsetWritesTheBase := by
  refine ⟨fun s t h hne => ?_, fun fuel c s t r h hrun hstep hne => ?_⟩
  · obtain ⟨_, _, _, hrb⟩ := step_frame h
    exact hrb.resolve_left hne
  · exact (((served_of_serve h).rb.resolve_left hrun).resolve_left hstep).resolve_left hne

/-! ### The invariant, under every command -/

theorem State.Inv.of_stepsTo {s t : State} (h : s.Inv) (ht : StepsTo s t) : t.Inv := by
  induction ht with
  | refl => exact h
  | tail _ hu ih => exact ih.of_step hu

/-- A loaded program that fits meets the invariant (70_reset_and_hazards.md R210). -/
theorem State.inv_loaded {ws : List Word} {lastAddr : Fin Config.memWordsMax} (h : ws.length ≤ lastAddr.val + 1) :
    (State.loaded ws lastAddr).Inv where
  pcNonneg := by simp [State.loaded]
  memWf := Memory.wf_ofWords ws 0
  memBelowLen c hc := by
    have := Memory.mem_ofWords hc
    simp only [State.loaded]
    omega
  lenBound := h
  origFits := h
  causeIff := by simp [State.loaded]
  infoZero _ := rfl

/-- Every command keeps the invariant, where INSTALL is given a snapshot of the same machine (log entry 10). -/
theorem State.Inv.of_served {s t : State} {c : Command} (h : s.Inv)
    (hsnap : ∀ snap, c = .install snap → snap.FromSameMachine s.lastAddr) (ht : Served s c t) : t.Inv := by
  cases ht with
  | unchanged => exact h
  | load hw => exact State.inv_loaded hw
  | poke v ha => exact (h.grow ha).store (by simp) v
  | peek ha => exact h.grow ha
  | enq v => exact h.setInput _
  | run hs => exact h.of_stepsTo hs
  | step hs => exact h.of_step hs
  | outClear => exact { h with }
  | reset he =>
    have hl : (State.loaded s.orig s.lastAddr).Inv := State.inv_loaded h.origFits
    exact { hl with
      causeIff := ⟨fun _ => by simp, fun _ => h.causeIff.mpr he⟩
      infoZero := h.infoZero }
  | install snap he =>
    obtain ⟨u, hu, hlast, rfl⟩ := hsnap snap rfl
    exact { hu with
      lenBound := by simpa [State.memWords, hlast] using hu.lenBound
      origFits := h.origFits
      causeIff := ⟨fun _ => by dsimp only; split <;> simp_all, fun _ => h.causeIff.mpr he⟩
      infoZero := h.infoZero }

/-- Every snapshot a core's reply adds is one CAPTURE takes from it (45_host_port.md R173). -/
theorem Reply.fromSameMachine_hold {fuel : Nat} {c : Command} {s t : State} {a : Reply} {held : List Snapshot}
    (h : Machine.serve fuel c s = some (a, t)) (hs : s.Inv) (hh : ∀ snap ∈ held, snap.FromSameMachine s.lastAddr) :
    ∀ snap ∈ Reply.hold held a, snap.FromSameMachine s.lastAddr := by
  rcases Reply.hold_cases held a with hk | ⟨taken, rfl, hk⟩
  · rwa [hk]
  · obtain ⟨_, rfl, _⟩ := serve_snapshot h
    rw [hk]
    intro snap hmem
    rcases List.mem_append.mp hmem with hmem | hmem
    · exact hh snap hmem
    · exact ⟨s, hs, rfl, List.mem_singleton.mp hmem⟩

/-- Settles O56: the core that serves keeps its invariant and its size, the snapshot a token stands for being one held,
and what is held after the reply is of this machine. -/
theorem everyHostCommandKeepsThePortInvariant : Obligations.EveryHostCommandKeepsThePortInvariant := by
  intro fuel k c lastAddr p q r hp h
  rcases Port.serve_cases h with ⟨_, _, rfl⟩ | ⟨d, s, a, t, hd, hs, hserve, _, rfl⟩
  · exact hp
  · obtain ⟨hinv, rfl⟩ := hp.cores s (List.mem_of_getElem? hs)
    have hserved := served_of_serve hserve
    have hsnap : ∀ snap, d = .install snap → snap.FromSameMachine s.lastAddr := fun snap hi =>
      hp.held snap (HostCommand.mem_of_resolve (hi ▸ hd))
    refine ⟨fun u hu => ?_, Reply.fromSameMachine_hold hserve hinv hp.held⟩
    rcases List.mem_or_eq_of_mem_set hu with hu | rfl
    · exact hp.cores u hu
    · exact ⟨hinv.of_served hsnap hserved, hserved.frame.1⟩

end Sys2Proof.Machine
end

section
/-! PROOFS. `len` is unobservable (10_state.md R32): every run is compared with the one that has no `len`. -/

namespace Sys2Proof.Machine

@[simp] theorem State.forgetLen_forgetLen (s : State) : s.forgetLen.forgetLen = s.forgetLen := rfl

@[simp] theorem Snapshot.forgetLen_forgetLen (snap : Snapshot) : snap.forgetLen.forgetLen = snap.forgetLen := rfl

@[simp] theorem Port.forgetLen_forgetLen (p : Port) : p.forgetLen.forgetLen = p.forgetLen := by
  simp [Port.forgetLen, Function.comp_def]

/-- A reply and the state after it, less every `len`. -/
def lessLen (rs : Reply × State) : Reply × State := (rs.1.forgetLen, rs.2.forgetLen)

theorem firstFault_withLen (i : Instr) (s : State) (n : Nat) : firstFault i (s.withLen n) = firstFault i s := by
  cases i <;> rfl

/-- Fault entry determines the state but for `len`. -/
theorem FaultEntered.forgetLen {s t : State} {c : FCause} {x : Int} (h : FaultEntered c x s t) :
    t.forgetLen = s.forgetLen.raise c x := by
  rw [h.1]
  rfl

/-- What an instruction does is the same in a state that differs in `len` alone, but for `len`. -/
theorem exec_withLen {i : Instr} {s t u : State} {n : Nat} (ht : exec i s = .next t) (hu : exec i (s.withLen n) = .next u) :
    u.forgetLen = t.forgetLen := by
  rcases exec_cases ht with ⟨hf, rfl⟩ | ⟨c, x, hf, he⟩
  · rw [exec_of_noFault ((firstFault_withLen i s n).trans hf)] at hu
    cases hu
    exact effect_forgetLen i s n
  · obtain ⟨v, hv, he'⟩ := exec_of_fault ((firstFault_withLen i s n).trans hf)
    rw [hv] at hu
    cases hu
    have hq : inputAfterFault i (s.withLen n) = inputAfterFault i s := by cases i <;> rfl
    rw [he.forgetLen, he'.forgetLen, hq]
    rfl

/-- A step of a core whose fetch answers no instruction enters the fetch's fault. -/
theorem step_of_not_fetches {s t : State} (ha : s.Awake) (hn : ∀ i, ¬ Fetches s i) (h : step s = .next t) :
    ∃ c x, stepFault s = some (c, x) ∧ FaultEntered c x s t := by
  rcases step_cases ha h with ⟨i, hi, _⟩ | ⟨i, _, _, hi, _⟩ | ⟨c, x, _, hf, he⟩
  · exact absurd hi (hn i)
  · exact absurd hi (hn i)
  · exact ⟨c, x, hf, he⟩

/-- A step from a state that differs in `len` alone leads to one that differs in `len` alone (10_state.md R32). -/
theorem step_forgetLen {s t u : State} (ht : step s = .next t) (hu : step s.forgetLen = .next u) :
    u.forgetLen = t.forgetLen := by
  by_cases ha : s.Awake
  · by_cases hi : ∃ i, Fetches s i
    · obtain ⟨i, hi⟩ := hi
      rw [step_of_fetches ha hi] at ht
      rw [step_of_fetches (s := s.forgetLen) ha hi] at hu
      exact exec_withLen ht (n := lenAfter [s.pc.toInt] 0) hu
    · have hn : ∀ i, ¬ Fetches s i := fun i h => hi ⟨i, h⟩
      obtain ⟨c, x, hf, he⟩ := step_of_not_fetches ha hn ht
      obtain ⟨d, y, hg, he'⟩ := step_of_not_fetches (s := s.forgetLen) ha hn hu
      have hsame := stepFault_withLen s 0
      rw [← State.forgetLen_eq_withLen, hf, hg] at hsame
      cases hsame
      rw [he.forgetLen, he'.forgetLen]
      rfl
  · rw [step_of_not_awake ha] at ht
    rw [step_of_not_awake (s := s.forgetLen) ha] at hu
    cases ht
    cases hu
    rfl

theorem runLoop_forgetLen (n : Nat) (s : State) :
    (runLoop n s.forgetLen).map State.forgetLen = (runLoop n s).map State.forgetLen := by
  induction n generalizing s with
  | zero =>
    by_cases he : s.eng = .running
    · rw [runLoop, runLoop, if_pos he, if_pos (show s.forgetLen.eng = .running from he)]
    · rw [runLoop_stop he, runLoop_stop (show s.forgetLen.eng ≠ .running from he)]
      rfl
  | succ n ih =>
    by_cases he : s.eng = .running
    · obtain ⟨t, ht⟩ := step_next s
      obtain ⟨u, hu⟩ := step_next s.forgetLen
      rw [runLoop_step he ht, runLoop_step (s := s.forgetLen) he hu, ← ih u, step_forgetLen ht hu, ih t]
    · rw [runLoop_stop he, runLoop_stop (s := s.forgetLen) he]
      rfl

theorem hostRun_forgetLen (n : Nat) (s : State) : (hostRun n s.forgetLen).map lessLen = (hostRun n s).map lessLen := by
  by_cases ha : s.Awake
  · have h := congrArg (Option.map fun t => (ranReply t, t)) (runLoop_forgetLen n (s.setEng .running))
    rw [hostRun_of_awake ha, hostRun_of_awake (s := s.forgetLen) ha]
    rw [Option.map_map, Option.map_map] at h ⊢
    exact h
  · rw [hostRun_of_not_awake ha, hostRun_of_not_awake (s := s.forgetLen) ha]
    rfl

theorem hostStep_forgetLen (s : State) : lessLen (hostStep s.forgetLen) = lessLen (hostStep s) := by
  obtain ⟨t, ht⟩ := step_next s
  obtain ⟨u, hu⟩ := step_next s.forgetLen
  rw [hostStep_eq ht, hostStep_eq hu]
  exact congrArg (fun v => (ranReply v, v)) (step_forgetLen ht hu)

/-- Which branch a command takes does not depend on `len`, and in each branch `len` shows in `len` alone. -/
theorem lessLen_ite {p : Prop} [Decidable p] {a b c d : Reply × State} (ha : lessLen a = lessLen c)
    (hb : lessLen b = lessLen d) : lessLen (if p then a else b) = lessLen (if p then c else d) := by
  split
  · exact ha
  · exact hb

/-- A command less the `len` it carries, served from the state less its `len`, is answered alike (10_state.md R32). -/
theorem serve_forgetLen (fuel : Nat) (c : Command) (s : State) :
    (serve fuel c.forgetLen s.forgetLen).map lessLen = (serve fuel c s).map lessLen := by
  cases c with
  | run => exact hostRun_forgetLen fuel s
  | step => exact congrArg some (hostStep_forgetLen s)
  | load _ | poke _ _ | peek _ | enq _ | outClear | reset | install _ => exact congrArg some (lessLen_ite rfl rfl)
  | outRead | status | capture => rfl

/-- Settles O51: both runs are compared with the one whose command and state have no `len`. -/
theorem lengthIsUnobservable : Obligations.LengthIsUnobservable := by
  intro fuel c d s t hc hs
  show (serve fuel c s).map lessLen = (serve fuel d t).map lessLen
  rw [← serve_forgetLen fuel c s, hc, hs, serve_forgetLen fuel d t]

/-! ### The port shows nothing of `len` -/

theorem HostCommand.resolve_forgetLen (held : List Snapshot) (c : HostCommand) :
    HostCommand.resolve (held.map Snapshot.forgetLen) c = (HostCommand.resolve held c).map Command.forgetLen := by
  cases c with
  | install token =>
    simp only [HostCommand.resolve, List.getElem?_map, Option.map_map]
    rfl
  | _ => rfl

theorem Reply.hold_forgetLen (held : List Snapshot) (a : Reply) :
    (Reply.hold held a).map Snapshot.forgetLen = Reply.hold (held.map Snapshot.forgetLen) a.forgetLen := by
  cases a with
  | snapshot snap => exact List.map_append
  | _ => rfl

/-- A command to a core that does not exist is not served. -/
theorem Port.serve_absent {fuel k : Nat} {c : HostCommand} {d : Command} {p : Port}
    (hd : HostCommand.resolve p.held c = some d) (hs : p.cores[k]? = none) : Port.serve fuel k c p = none := by
  unfold Port.serve Cores.serve
  simp only [hd, hs, Option.map_none]

/-- What the host is shown, and the port after it, less every `len`. -/
def shownLessLen (rp : HostReply × Port) : HostReply × Port := (rp.1, rp.2.forgetLen)

/-- What the port makes of the answer of core `k`: the reply shown, and the port after it. -/
def Port.answered (p : Port) (k : Nat) (rs : Reply × State) : HostReply × Port :=
  (Reply.shown p.held rs.1, { cores := p.cores.set k rs.2, held := Reply.hold p.held rs.1 })

theorem Port.answered_forgetLen (p : Port) (k : Nat) (rs : Reply × State) :
    shownLessLen (p.answered k rs) = p.forgetLen.answered k (lessLen rs) := by
  have hshown : Reply.shown (p.held.map Snapshot.forgetLen) rs.1 = Reply.shown p.held rs.1 :=
    Reply.shown_of_length (List.length_map _) rs.1
  simp only [shownLessLen, answered, lessLen, Port.forgetLen, Reply.hold_forgetLen, Reply.shown_forgetLen, List.map_set,
    hshown]

theorem Port.map_answered (p : Port) (k : Nat) (o : Option (Reply × State)) :
    (o.map (p.answered k)).map shownLessLen = (o.map lessLen).map (p.forgetLen.answered k) := by
  cases o with
  | none => rfl
  | some rs => exact congrArg some (p.answered_forgetLen k rs)

/-- A host's command to a port less every `len` is answered alike (10_state.md R32, 45_host_port.md R173). -/
theorem Port.serve_forgetLen (fuel k : Nat) (c : HostCommand) (p : Port) :
    (Port.serve fuel k c p.forgetLen).map shownLessLen = (Port.serve fuel k c p).map shownLessLen := by
  have hres : HostCommand.resolve p.forgetLen.held c = (HostCommand.resolve p.held c).map Command.forgetLen :=
    HostCommand.resolve_forgetLen p.held c
  have hcore : p.forgetLen.cores[k]? = p.cores[k]?.map State.forgetLen := List.getElem?_map
  cases hd : HostCommand.resolve p.held c with
  | none =>
    rw [hd] at hres
    rw [Port.serve_unresolved hd, Port.serve_unresolved hres]
    simp [shownLessLen]
  | some d =>
    rw [hd] at hres
    cases hs : p.cores[k]? with
    | none =>
      rw [hs] at hcore
      rw [Port.serve_absent hd hs, Port.serve_absent hres hcore]
    | some s =>
      rw [hs] at hcore
      rw [Port.serve_resolved hd hs, Port.serve_resolved hres hcore]
      calc ((Machine.serve fuel d.forgetLen s.forgetLen).map (p.forgetLen.answered k)).map shownLessLen
        _ = ((Machine.serve fuel d.forgetLen s.forgetLen).map lessLen).map (p.forgetLen.answered k) := by
          rw [Port.map_answered, Port.forgetLen_forgetLen]
        _ = ((Machine.serve fuel d s).map lessLen).map (p.forgetLen.answered k) := by rw [Machine.serve_forgetLen]
        _ = ((Machine.serve fuel d s).map (p.answered k)).map shownLessLen := (Port.map_answered p k _).symm

/-- The replies to a sequence of host commands. -/
def Port.replies (fuel : Nat) (cs : List (Nat × HostCommand)) (p : Port) : Option (List HostReply) :=
  (Port.serveAll fuel cs p).map Prod.fst

theorem Port.replies_cons (fuel : Nat) (c : Nat × HostCommand) (cs : List (Nat × HostCommand)) (p : Port) :
    Port.replies fuel (c :: cs) p =
      (Port.serve fuel c.1 c.2 p).bind fun rq => (Port.replies fuel cs rq.2).map (rq.1 :: ·) := by
  unfold Port.replies
  rw [Port.serveAll]
  cases Port.serve fuel c.1 c.2 p with
  | none => rfl
  | some rq => cases h : Port.serveAll fuel cs rq.2 <;> simp [h]

/-- The replies to a sequence of commands are the same from a port less every `len`. -/
theorem Port.replies_forgetLen (fuel : Nat) (cs : List (Nat × HostCommand)) (p : Port) :
    Port.replies fuel cs p.forgetLen = Port.replies fuel cs p := by
  induction cs generalizing p with
  | nil => rfl
  | cons c cs ih =>
    have after (rq : HostReply × Port) : (Port.replies fuel cs rq.2).map (rq.1 :: ·) =
        (Port.replies fuel cs (shownLessLen rq).2).map ((shownLessLen rq).1 :: ·) :=
      congrArg (Option.map _) (ih rq.2).symm
    have h := congrArg (·.bind fun rq => (Port.replies fuel cs rq.2).map (rq.1 :: ·))
      (Port.serve_forgetLen fuel c.1 c.2 p)
    simp only [Option.bind_map, Function.comp_def, ← after] at h
    rw [Port.replies_cons, Port.replies_cons, h]

/-- Settles O55: the replies from both ports are those from the port less every `len`. -/
theorem repliesShowNothingOfTheLength : Obligations.RepliesShowNothingOfTheLength := by
  intro fuel cs p q h
  show Port.replies fuel cs p = Port.replies fuel cs q
  rw [← Port.replies_forgetLen fuel cs p, h, Port.replies_forgetLen fuel cs q]

end Sys2Proof.Machine
end

section
/-! PROOFS. Memory and operands: the canonical form is unique, what one access does by the range of its address, and the
two addresses a parameter touches, mode by mode. -/

namespace Sys2Proof.Machine

/-! ### Memory as a function of its addresses -/

namespace Memory

/-- In a memory of the canonical form, the entries are the addresses that do not read 0. -/
theorem mem_iff_read {m : Memory} (h : m.wf) {a : Nat} {x : Word} : (a, x) ∈ m ↔ m.read a = x ∧ x ≠ 0 := by
  induction m with
  | nil => simpa using fun hx => hx.symm
  | cons c m ih =>
    obtain ⟨b, y⟩ := c
    obtain ⟨hlt, hy, hm⟩ := wf_cons.mp h
    rw [List.mem_cons, Prod.mk.injEq, read_cons]
    by_cases hb : b = a
    · have habs : (a, x) ∉ m := fun hmem => absurd hb (hlt _ hmem).ne
      rw [if_pos hb, or_iff_left habs]
      constructor
      · rintro ⟨_, rfl⟩
        exact ⟨rfl, hy⟩
      · exact fun hx => ⟨hb.symm, hx.1.symm⟩
    · rw [if_neg hb, or_iff_right fun hx => hb hx.1.symm]
      exact ih hm

/-- Two memories of the canonical form that read alike everywhere are equal (log entry 3). -/
theorem eq_of_read_eq {m n : Memory} (hm : m.wf) (hn : n.wf) (h : ∀ a, m.read a = n.read a) : m = n := by
  have : Std.Irrefl fun c d : Nat × Word => c.1 < d.1 := ⟨fun c => lt_irrefl c.1⟩
  refine hm.1.eq_of_mem_iff hn.1 fun ⟨a, x⟩ => ?_
  rw [mem_iff_read hm, mem_iff_read hn, h]

end Memory

/-- Settles O8: writes and loads make the form, and in it reads determine the entries. -/
theorem memoryFormIsCanonical : Obligations.MemoryFormIsCanonical :=
  ⟨fun _ a v h => Memory.wf_write h a v, fun ws => Memory.wf_ofWords ws 0, fun _ _ => Memory.eq_of_read_eq⟩

/-- No word is listed at or beyond `len` (20_memory.md R41). -/
theorem State.Inv.read_eq_zero {s : State} (h : s.Inv) {a : Nat} (ha : s.len ≤ a) : s.mem.read a = 0 :=
  Memory.read_eq_zero_of_absent fun c hc => ((h.memBelowLen c hc).trans_le ha).ne

/-- Settles O7: no word is listed there. -/
theorem wordsBeyondTheLengthReadZero : Obligations.WordsBeyondTheLengthReadZero := fun _ _ h ha => h.read_eq_zero ha

/-! ### One access, by the range of its address -/

theorem addrFault_of_neg {s : State} {a : Int} (h : a < 0) : addrFault s a = some (.negativeAddress, a) := if_pos h

theorem addrFault_of_memWords_le {s : State} {a : Int} (h : (s.memWords : Int) ≤ a) :
    addrFault s a = some (.addressLimit, a) := by
  rw [addrFault, if_neg (by omega), if_pos h]

/-- The growth of R42 as its condition: `len` becomes `a + 1` when `a >= len`. -/
theorem max_succ_eq_ite (n : Nat) {a : Int} (h : 0 ≤ a) :
    max n (a.toNat + 1) = if (n : Int) ≤ a then a.toNat + 1 else n := by
  split <;> omega

/-- Settles O5: the two faults of the check, and the read of a legal address. -/
theorem memReadChecksGrowsAndReads : Obligations.MemReadChecksGrowsAndReads := by
  refine fun a s => ⟨fun h0 hm => ?_, fun h => memRead_fault (addrFault_of_neg h),
    fun h => memRead_fault (addrFault_of_memWords_le h)⟩
  rw [memRead_legal ⟨h0, hm⟩, max_succ_eq_ite _ h0]
  rfl

/-- Settles O6: the two faults of the check, and the store at a legal address. -/
theorem memWriteChecksGrowsAndStores : Obligations.MemWriteChecksGrowsAndStores := by
  refine fun a v s => ⟨fun h0 hm => ?_, fun h => memWrite_fault (addrFault_of_neg h) v,
    fun h => memWrite_fault (addrFault_of_memWords_le h) v⟩
  rw [memWrite_legal ⟨h0, hm⟩, max_succ_eq_ite _ h0]
  exact ⟨_, rfl, Memory.read_write s.mem a.toNat v, rfl⟩

/-! ### Operands, by their modes -/

/-- An Immediate parameter designates its own location, so its two accesses grow `len` as one. -/
theorem lenAfter_touched_immediate (k : Nat) (s : State) (n : Nat) :
    lenAfter (touched k .immediate s) n = lenAfter [paramLoc k s] n := by
  rw [lenAfter_touched, operandAddr, designated, Nat.max_assoc, Nat.max_self]
  rfl

/-- Settles O9: the rule of an accessible source, read in each mode. -/
theorem sourceOperandFollowsItsMode : Obligations.SourceOperandFollowsItsMode := by
  refine fun k s => ⟨fun m c x h => readOperand_fault h, fun hloc hd => ?_, fun hloc => ?_, fun hloc hd => ?_⟩
  · exact readOperand_accessible (m := .position) ⟨hloc, hd⟩
  · rw [readOperand_accessible (m := .immediate) ⟨hloc, hloc⟩, lenAfter_touched_immediate]
    rfl
  · exact readOperand_accessible (m := .relative) ⟨hloc, hd⟩

/-- Settles O10: the rule of an accessible destination; the statement's address is `operandAddr` in each mode. -/
theorem destinationFollowsItsMode : Obligations.DestinationFollowsItsMode := by
  intro k m v s loc w d
  have hd : operandAddr k m s = d := by cases m <;> rfl
  refine ⟨fun c x h => writeOperand_fault h v, fun hloc hlegal => ?_⟩
  rw [← hd] at hlegal ⊢
  exact ⟨_, writeOperand_accessible ⟨hloc, hlegal⟩ v, Memory.read_write s.mem _ v, rfl⟩

end Sys2Proof.Machine
end

section
/-! PROOFS. The encoding: an instruction word and its decimal digits determine each other (30_encoding.md R61, R62), and
the words that decode to no instruction stop the core (R69). -/

namespace Sys2Proof

/-! ### Words and their digits -/

/-- The formula of R61 read backwards: a number is an instruction's value exactly when it is below 100000 and its digits
are the instruction's opcode and modes. -/
theorem Instr.eq_value_iff {n : Nat} {i : Instr} :
    n = i.value ↔ n < 100000 ∧ n % 100 = i.opcode ∧ digitOf n 2 = i.modes.1.digit ∧
      digitOf n 3 = i.modes.2.1.digit ∧ digitOf n 4 = i.modes.2.2.digit := by
  have := i.opcode_lt
  have := i.modes.1.digit_le
  have := i.modes.2.1.digit_le
  have := i.modes.2.2.digit_le
  unfold digitOf Instr.value
  omega

/-- The words that decode to an instruction are its word alone (30_encoding.md R61). -/
theorem decode_eq_instr_iff_encode_eq {w : Word} {i : Instr} : decode w = .instr i ↔ encode i = w := by
  rw [decode_eq_instr, ← Instr.eq_value_iff]
  constructor
  · rintro ⟨_, hw⟩
    exact BitVec.eq_of_toNat_eq ((toNat_encode i).trans hw.symm)
  · rintro rfl
    exact ⟨by rw [toInt_encode]; omega, toNat_encode i⟩

/-- Settles O2: the formula and its range, and the digits of a word determine it. -/
theorem decodeAndEncodeAreInverse : Obligations.DecodeAndEncodeAreInverse := by
  refine ⟨fun i => ?_, fun _ _ => decode_eq_instr_iff_encode_eq⟩
  have hb := i.value_bounds
  rw [toInt_encode]
  exact ⟨by simp [Instr.value], by omega, by omega⟩

theorem Mode.exists_eq_digit {d : Nat} (hd : d ≤ 2) : ∃ m : Mode, d = m.digit :=
  match d, hd with
  | 0, _ => ⟨.position, rfl⟩
  | 1, _ => ⟨.immediate, rfl⟩
  | 2, _ => ⟨.relative, rfl⟩

/-- A word that passes every check of R62 decodes to an instruction. -/
theorem exists_decode_eq_instr {w : Word} (hn : 0 ≤ w.toInt) (ho : w.toNat % 100 ∈ legalOpcodes)
    (hlt : w.toNat < 100000) (h2 : digitOf w.toNat 2 ≤ 2) (h3 : digitOf w.toNat 3 ≤ 2) (h4 : digitOf w.toNat 4 ≤ 2) :
    ∃ i, decode w = .instr i := by
  obtain ⟨mk, hmk⟩ := Option.ne_none_iff_exists'.mp fun h => Instr.ofOpcode_eq_none.mp h ho
  obtain ⟨m1, h2⟩ := Mode.exists_eq_digit h2
  obtain ⟨m2, h3⟩ := Mode.exists_eq_digit h3
  obtain ⟨m3, h4⟩ := Mode.exists_eq_digit h4
  obtain ⟨hop, hm⟩ := Instr.ofOpcode_spec hmk m1 m2 m3
  exact ⟨mk m1 m2 m3, decode_eq_instr.mpr ⟨hn, hlt, hop.symm, by rw [hm]; exact ⟨h2, h3, h4⟩⟩⟩

/-- The opcodes as the statements write them, for the exact integers. -/
theorem natCast_mod_mem_opcodes_iff {n : Nat} :
    (n : Int) % 100 ∈ ([1, 2, 3, 4, 5, 6, 7, 8, 9, 99] : List Int) ↔ n % 100 ∈ legalOpcodes := by
  simp only [legalOpcodes, List.mem_cons, List.not_mem_nil, or_false]
  omega

theorem natCast_digitOf (n k : Nat) : (digitOf n k : Int) = n / 10 ^ k % 10 := by simp [digitOf]

/-- Settles O3: the digits of a word that is not negative are those of a natural number, which the decoder checks in
R62's order. -/
theorem decodeReadsTheDecimalDigits : Obligations.DecodeReadsTheDecimalDigits := by
  intro w n op known digit
  have hn (h0 : 0 ≤ n) : n = w.toNat := (Machine.toNat_eq_toInt_of_nonneg h0).symm
  have hknown (h0 : 0 ≤ n) : known ↔ w.toNat % 100 ∈ legalOpcodes := by
    rw [← natCast_mod_mem_opcodes_iff, ← hn h0]
  have hdigit (h0 : 0 ≤ n) (k : Nat) : digit k = digitOf w.toNat k := by rw [natCast_digitOf, ← hn h0]
  refine ⟨decode_negative, fun h0 hk => ?_, fun h0 hk hl => ?_, fun h0 hk hl hd => ?_, fun h0 hk hl h2 h3 h4 => ?_⟩
  · exact decode_unknown (mt (hknown h0).mpr hk)
  · exact decode_tooLarge h0 ((hknown h0).mp hk) (by omega)
  · simp only [hdigit h0] at hd
    exact decode_badMode h0 ((hknown h0).mp hk) (by omega)
  · rw [hdigit h0] at h2 h3 h4
    obtain ⟨i, hi⟩ := exists_decode_eq_instr h0 ((hknown h0).mp hk) (by omega) (by omega)
      (by omega) (by omega)
    obtain ⟨_, _, ho, hm1, hm2, hm3⟩ := decode_eq_instr.mp hi
    rw [hdigit h0, hdigit h0, hdigit h0, hm1, hm2, hm3]
    exact ⟨i, hi, by omega, rfl, rfl, rfl⟩

/-- Settles O1: the decoder evaluated at each word. -/
theorem specWordsDecodeAsNamed : Obligations.SpecWordsDecodeAsNamed := by
  unfold Obligations.SpecWordsDecodeAsNamed
  decide

end Sys2Proof

namespace Sys2Proof.Machine

/-! ### Words that stop the core -/

/-- A step whose word at `pc` is no instruction enters the first fault of R197's list. -/
theorem step_enters_stepFault {s : State} {c : FCause} {x : Int} (ha : s.Awake)
    (hd : ∀ i, decode (fetchWord s) ≠ .instr i) (hf : stepFault s = some (c, x)) :
    ∃ t, step s = .next t ∧ FaultEntered c x s t := by
  obtain ⟨t, ht⟩ := step_next s
  obtain ⟨d, y, hg, he⟩ := step_of_not_fetches ha (fun i hi => hd i hi.2) ht
  cases hf.symm.trans hg
  exact ⟨t, ht, he⟩

/-- A fetched word the decoder refuses enters the fault it names, with the word as FINFO (60_exceptions.md R190). -/
theorem step_of_decode_unknownOpcode {s : State} (ha : s.Awake) (hl : s.Legal s.pc.toInt)
    (hd : decode (fetchWord s) = .unknownOpcode) :
    ∃ t, step s = .next t ∧ FaultEntered .unknownOpcode (fetchWord s).toInt s t :=
  step_enters_stepFault ha (by simp [hd]) (by rw [stepFault, addrFault_eq_none.mpr hl, hd]; rfl)

theorem step_of_decode_invalidMode {s : State} (ha : s.Awake) (hl : s.Legal s.pc.toInt)
    (hd : decode (fetchWord s) = .invalidMode) :
    ∃ t, step s = .next t ∧ FaultEntered .invalidMode (fetchWord s).toInt s t :=
  step_enters_stepFault ha (by simp [hd]) (by rw [stepFault, addrFault_eq_none.mpr hl, hd]; rfl)

/-- Settles O26: what the decoder answers by the word's digits, and the fault a refused word enters. -/
theorem illegalWordsStopTheCore : Obligations.IllegalWordsStopTheCore := by
  intro s ha hl w known
  obtain ⟨hneg, hunknown, hlarge, hmode, hlegal⟩ := decodeReadsTheDecimalDigits (fetchWord s)
  norm_num only at hmode hlegal
  refine ⟨fun h => step_of_decode_unknownOpcode ha hl ?_, fun h0 hk h => step_of_decode_invalidMode ha hl ?_,
    fun h0 hk hlt h2 h3 h4 => ?_⟩
  · by_cases h0 : w < 0
    · exact hneg h0
    · refine hunknown (by omega) fun hk => ?_
      simp only [List.mem_cons, List.not_mem_nil, or_false] at hk
      omega
  · by_cases hlt : w < 100000
    · exact hmode h0 hk hlt (by omega)
    · exact hlarge h0 hk (by omega)
  · obtain ⟨i, hi, _⟩ := hlegal h0 hk hlt h2 h3 h4
    exact ⟨i, hl, hi⟩

/-- Settles O4: no meaning is given the mode of an unused slot. -/
theorem unusedSlotModesAreIgnored : Obligations.UnusedSlotModesAreIgnored :=
  fun _ _ _ _ _ _ _ _ _ => ⟨rfl, rfl, rfl, rfl, rfl, rfl⟩

end Sys2Proof.Machine
end

section
/-! PROOFS. The engine (40_engine.md): what a step and the other commands do to `eng`, where a step leaves `pc`, and what
a fetch outside the program enters. -/

namespace Sys2Proof.Machine

/-! ### The fetch -/

/-- Settles O28: the state in which the fetched instruction runs is the one the statement names. -/
theorem stepRunsTheDecodedInstruction : Obligations.StepRunsTheDecodedInstruction :=
  fun _ _ ha h0 hm hd => step_of_fetches ha ⟨⟨h0, hm⟩, hd⟩

/-- Settles O30: a fault is a next state, and no arm refuses. -/
theorem stepAlwaysAnswersANextState : Obligations.StepAlwaysAnswersANextState := ⟨exec_next, step_next⟩

/-- A fetch from no address enters the fault of its address check (40_engine.md R83, 20_memory.md R43). -/
theorem step_of_fetch_fault {s : State} {c : FCause} {x : Int} (ha : s.Awake) (h : addrFault s s.pc.toInt = some (c, x)) :
    ∃ t, step s = .next t ∧ FaultEntered c x s t := by
  refine ⟨(s.setEng .running).raise c x, ?_, faultEntered_raise s c x⟩
  rw [step_of_awake ha, fetchDecode_fault (s := s.setEng .running) h]

/-- Settles O27: the address check of the fetch, and the zero fill of R41, 0 being no instruction word. -/
theorem fetchOutsideTheProgramFaults : Obligations.FetchOutsideTheProgramFaults := by
  intro s hinv ha
  refine ⟨fun hm => step_of_fetch_fault ha (addrFault_of_memWords_le hm), fun hm hlen => ?_⟩
  have hzero : fetchWord s = 0 := hinv.read_eq_zero (by omega)
  have hd : decode (fetchWord s) = .unknownOpcode := by rw [hzero]; decide
  simpa [hzero] using step_of_decode_unknownOpcode ha ⟨hinv.pcNonneg, hm⟩ hd

/-! ### What a step does to `eng` -/

theorem Fetches.iff_eq {s : State} {i j : Instr} (hi : Fetches s i) : Fetches s j ↔ i = j :=
  ⟨hi.unique, fun h => h ▸ hi⟩

theorem stepFault_of_fetches {s : State} {i : Instr} (h : Fetches s i) : stepFault s = firstFault i s := by
  rw [stepFault, addrFault_eq_none.mpr h.1, h.2]
  rfl

/-- A step completes the fetched instruction, or enters FAULTED with `pc` kept (60_exceptions.md R196). -/
theorem step_completes_or_faults {s t : State} (ha : s.Awake) (h : step s = .next t) :
    (∃ i, Fetches s i ∧ stepFault s = none ∧ t = effect i s.fetched) ∨
    (stepFault s ≠ none ∧ t.eng = .faulted ∧ t.pc = s.pc) := by
  rcases step_cases ha h with ⟨i, hi, hs, _, ht⟩ | ⟨_, _, _, _, hs, _, ht, _⟩ | ⟨_, _, _, hs, ht, _⟩
  · exact .inl ⟨i, hi, hs, ht⟩
  · exact .inr ⟨by simp [hs], by rw [ht], by rw [ht]; rfl⟩
  · exact .inr ⟨by simp [hs], by rw [ht], by rw [ht]⟩

/-- An effect on a RUNNING core leaves it RUNNING exactly when it is no Halt and no Input with `inq` empty. -/
theorem effect_eng_running_iff (i : Instr) {s : State} (h : s.eng = .running) :
    (effect i s).eng = .running ↔
      (∀ m1 m2 m3, i ≠ .hlt m1 m2 m3) ∧ ¬ (s.inq = [] ∧ ∃ m1 m2 m3, i = .inp m1 m2 m3) := by
  cases i with
  | inp m1 m2 m3 => cases hq : s.inq <;> simp [effect, hq, h]
  | _ => simp [effect, h]

/-- Settles O31: an effect's row of the table where no fault is raised; where one is, the fetched instruction is neither a
Halt nor an Input with `inq` empty, which raise none. -/
theorem stepFollowsTheEngineTable : Obligations.StepFollowsTheEngineTable := by
  intro s t ha ht
  rcases step_completes_or_faults ha ht with ⟨i, hi, hnone, rfl⟩ | ⟨hsome, hfaulted, _⟩
  · obtain ⟨hsuspended, hhalted, hfaulted⟩ := effect_eng i (s := s.fetched) rfl
    have hrunning := effect_eng_running_iff i (s := s.fetched) rfl
    rw [show s.fetched.inq = s.inq from rfl] at hsuspended hrunning
    refine ⟨?suspended, ?halted, iff_of_false hfaulted (by simp [hnone]), ?running⟩
    case suspended => simp only [hsuspended, hi.iff_eq, exists_and_right]
    case halted => simp only [hhalted, hi.iff_eq]
    case running => simp only [hrunning, hi.iff_eq, hnone, exists_eq_left', true_and]
  · have hinp : ¬ ∃ m1 m2 m3, Fetches s (.inp m1 m2 m3) ∧ s.inq = [] := by
      rintro ⟨m1, m2, m3, hi, hq⟩
      exact hsome (by rw [stepFault_of_fetches hi, firstFault, if_pos hq])
    have hhlt : ¬ ∃ m1 m2 m3, Fetches s (.hlt m1 m2 m3) := by
      rintro ⟨m1, m2, m3, hi⟩
      exact hsome (stepFault_of_fetches hi)
    exact ⟨iff_of_false (by simp [hfaulted]) hinp, iff_of_false (by simp [hfaulted]) hhlt, iff_of_true hfaulted hsome,
      iff_of_false (by simp [hfaulted]) fun h => hsome h.1⟩

/-! ### Where a step leaves `pc` -/

/-- An effect that leaves RUNNING, a Halt's or a suspension, keeps `pc` (40_engine.md R85). -/
theorem effect_pc_of_stopped {i : Instr} {s : State} (h : s.eng = .running) (hstop : (effect i s).eng ≠ .running) :
    (effect i s).pc = s.pc := by
  cases i with
  | hlt m1 m2 m3 => rfl
  | inp m1 m2 m3 =>
    cases hq : s.inq with
    | nil => simp [effect, hq]
    | cons v rest => simp [effect, hq, h] at hstop
  | _ => simp [effect, h] at hstop

/-- Settles O33: a fault, a suspension and a halt keep `pc`; the other effects advance it or jump. -/
theorem programCounterAdvancesByTheWidth : Obligations.ProgramCounterAdvancesByTheWidth := by
  intro s t ha ht
  rcases step_completes_or_faults ha ht with ⟨i, hi, hnone, rfl⟩ | ⟨_, hfaulted, hpc⟩
  · refine ⟨effect_pc_of_stopped rfl, fun hrun => ⟨i, hi, ?_⟩⟩
    obtain ⟨hnotHalt, hnotEmpty⟩ := (effect_eng_running_iff i rfl).mp hrun
    have hf : firstFault i s.fetched = none := by rw [firstFault_fetched, ← stepFault_of_fetches hi, hnone]
    rcases effect_pc hf with ⟨_, ⟨m1, m2, m3, hhlt⟩ | ⟨hinp, hq⟩⟩ | ⟨m1, m2, m3, hjump, htarget, _⟩ | hwidth
    · exact absurd hhlt (hnotHalt m1 m2 m3)
    · exact absurd ⟨hq, hinp⟩ hnotEmpty
    · exact .inr ⟨m1, m2, m3, hjump, htarget⟩
    · exact .inl hwidth
  · exact ⟨fun _ => hpc, fun hrun => by simp [hfaulted] at hrun⟩

/-! ### What the other commands do to `eng` -/

/-- Of the commands that run no step, only LOAD, RESET and INSTALL write `eng`, and only to RUNNING (40_engine.md R80). -/
theorem Served.eng {s t : State} {c : Command} (h : Served s c t) :
    c = .run ∨ c = .step ∨ t.eng = s.eng ∨ t.eng = .running ∧
      ((∃ ws, c = .load ws) ∨ (c = .reset ∧ s.eng ≠ .faulted) ∨ (∃ snap, c = .install snap) ∧ s.eng = .suspended) := by
  cases h with
  | run => exact .inl rfl
  | step => exact .inr (.inl rfl)
  | load => exact .inr (.inr (.inr ⟨rfl, .inl ⟨_, rfl⟩⟩))
  | reset he => exact .inr (.inr (.inr ⟨rfl, .inr (.inl ⟨rfl, he⟩)⟩))
  | install snap =>
    by_cases hs : s.eng = .suspended
    · exact .inr (.inr (.inr ⟨if_pos hs, .inr (.inr ⟨⟨snap, rfl⟩, hs⟩)⟩))
    · exact .inr (.inr (.inl (if_neg hs)))
  | _ => exact .inr (.inr (.inl rfl))

/-- A LOAD that is not refused starts a RUNNING core (45_host_port.md R162). -/
theorem hostLoad_eng {ws : List Word} {s t : State} (h : hostLoad ws s = (.ok, t)) : t.eng = .running := by
  unfold hostLoad at h
  split at h <;> cases h
  rfl

/-- RESET leads out of every state but FAULTED to RUNNING (45_host_port.md R171). -/
theorem hostReset_eng {s t : State} {r : Reply} (h : hostReset s = (r, t)) (he : s.eng ≠ .faulted) :
    t.eng = .running := by
  rw [hostReset, if_neg he] at h
  cases h
  rfl

/-- INSTALL makes a SUSPENDED instance RUNNING (45_host_port.md R174). -/
theorem hostInstall_eng {snap : Snapshot} {s t : State} {r : Reply} (h : hostInstall snap s = (r, t))
    (he : s.eng = .suspended) : t.eng = .running := by
  rw [hostInstall, if_neg (by simp [he])] at h
  cases h
  exact if_pos he

/-- Settles O47: the commands one by one, and the three that lead to RUNNING. -/
theorem commandsFollowTheEngineTable : Obligations.CommandsFollowTheEngineTable := by
  intro fuel c s t r h hrun hstep
  refine ⟨fun hne => ?_, ?_, ?_, ?_⟩
  · exact (((served_of_serve h).eng.resolve_left hrun).resolve_left hstep).resolve_left hne
  · rintro rfl
    exact hostReset_eng (Option.some.inj h)
  · rintro ws rfl rfl
    exact hostLoad_eng (Option.some.inj h)
  · rintro snap rfl
    exact hostInstall_eng (Option.some.inj h)

end Sys2Proof.Machine
end

section
/-! PROOFS. ADD, MUL, LT and EQ (41_alu.md R100 to R103): one shape, whose completion, faults and frame are proved once
and read off for each of the four. -/

namespace Sys2Proof.Machine

/-! ### The shape of the four -/

/-- The first fault of two sources and of what comes after them (60_exceptions.md R197): each check is made only when
those before it passed. -/
theorem firstFault_of_sources {m1 m2 : Mode} {s : State} {rest : Option (FCause × Int)} {f : FCause × Int}
    (h : paramFault 1 m1 s = some f ∨ Accessible 1 m1 s ∧ paramFault 2 m2 s = some f ∨
      Accessible 1 m1 s ∧ Accessible 2 m2 s ∧ rest = some f) :
    ((paramFault 1 m1 s).or (paramFault 2 m2 s)).or rest = some f := by
  rcases h with h1 | ⟨h1, h2⟩ | ⟨h1, h2, hrest⟩
  · simp [h1]
  · simp [paramFault_eq_none.mpr h1, h2]
  · simp [paramFault_eq_none.mpr h1, paramFault_eq_none.mpr h2, hrest]

/-- `i` reads two sources, makes a check of its result that raises `check`, if anything, and stores the result `r` where
parameter 3 designates. -/
structure AluShape (i : Instr) (m1 m2 m3 : Mode) (check : Option (FCause × Int)) (r : Word) (s : State) : Prop where
  /-- The order of its checks. -/
  fault : firstFault i s = ((paramFault 1 m1 s).or (paramFault 2 m2 s)).or (check.or (paramFault 3 m3 s))
  /-- What it does when none raises. -/
  result : effect i s = aluEffect m1 m2 m3 r s
  /-- A fault leaves `inq`. -/
  input : inputAfterFault i s = s.inq

theorem aluShape_add (m1 m2 m3 : Mode) (s : State) :
    let r := (operandWord 1 m1 s).toInt + (operandWord 2 m2 s).toInt
    AluShape (.add m1 m2 m3) m1 m2 m3 (rangeFault r) (Word.ofInt r) s := ⟨rfl, rfl, rfl⟩

theorem aluShape_mul (m1 m2 m3 : Mode) (s : State) :
    let r := (operandWord 1 m1 s).toInt * (operandWord 2 m2 s).toInt
    AluShape (.mul m1 m2 m3) m1 m2 m3 (rangeFault r) (Word.ofInt r) s := ⟨rfl, rfl, rfl⟩

theorem aluShape_lt (m1 m2 m3 : Mode) (s : State) :
    AluShape (.lt m1 m2 m3) m1 m2 m3 none
      (truthWord (decide ((operandWord 1 m1 s).toInt < (operandWord 2 m2 s).toInt))) s := ⟨rfl, rfl, rfl⟩

theorem aluShape_eq (m1 m2 m3 : Mode) (s : State) :
    AluShape (.eq m1 m2 m3) m1 m2 m3 none
      (truthWord (decide ((operandWord 1 m1 s).toInt = (operandWord 2 m2 s).toInt))) s := ⟨rfl, rfl, rfl⟩

namespace AluShape

variable {i : Instr} {m1 m2 m3 : Mode} {check : Option (FCause × Int)} {r : Word} {s : State}

/-! ### What an instruction of the shape does -/

theorem completes (h : AluShape i m1 m2 m3 check r s) (h1 : Accessible 1 m1 s) (h2 : Accessible 2 m2 s)
    (hc : check = none) (h3 : Accessible 3 m3 s) :
    ∃ t, exec i s = .next t ∧ StoredAndAdvanced (touched 1 m1 s ++ touched 2 m2 s ++ touched 3 m3 s)
      (operandAddr 3 m3 s) r.toInt 4 s t := by
  have hf : firstFault i s = none := by
    rw [h.fault, hc, paramFault_eq_none.mpr h1, paramFault_eq_none.mpr h2, paramFault_eq_none.mpr h3]
    rfl
  exact ⟨_, exec_of_noFault hf, h.result ▸ aluEffect_stored h3 r⟩

theorem enters (h : AluShape i m1 m2 m3 check r s) {c : FCause} {x : Int}
    (hf : paramFault 1 m1 s = some (c, x) ∨ Accessible 1 m1 s ∧ paramFault 2 m2 s = some (c, x) ∨
      Accessible 1 m1 s ∧ Accessible 2 m2 s ∧ check.or (paramFault 3 m3 s) = some (c, x)) :
    ∃ t, exec i s = .next t ∧ FaultEntered c x s t := by
  have he := exec_of_fault (h.fault.trans (firstFault_of_sources hf))
  rwa [h.input] at he

/-- Completed, `M` changes at the designated address alone; faulted, `M` and `pc` are kept (60_exceptions.md R196). -/
theorem frame (h : AluShape i m1 m2 m3 check r s) {t : State} (ht : exec i s = .next t) :
    (∀ a : Nat, a ≠ (operandAddr 3 m3 s).toNat → t.mem.read a = s.mem.read a) ∧
    t.rb = s.rb ∧ t.inq = s.inq ∧ t.outq = s.outq ∧ t.orig = s.orig ∧ t.lastAddr = s.lastAddr ∧
    ((t.eng = s.eng ∧ t.fcause = s.fcause ∧ t.finfo = s.finfo) ∨
      (t.eng = .faulted ∧ t.mem = s.mem ∧ t.pc = s.pc)) := by
  rcases exec_cases ht with ⟨_, rfl⟩ | ⟨c, x, _, heq, _⟩
  · rw [h.result]
    refine ⟨fun a ha => ?_, rfl, rfl, rfl, rfl, rfl, .inl ⟨rfl, rfl, rfl⟩⟩
    rw [aluEffect_mem, Memory.read_write, if_neg ha]
  · rw [h.input] at heq
    rw [heq]
    exact ⟨fun _ _ => rfl, rfl, rfl, rfl, rfl, rfl, .inr ⟨rfl, rfl, rfl⟩⟩

/-! ### With the range check of ADD and MUL -/

variable {v : Int}

theorem arith_completes (h : AluShape i m1 m2 m3 (rangeFault v) (Word.ofInt v) s) (h1 : Accessible 1 m1 s)
    (h2 : Accessible 2 m2 s) (hv : InI64 v) (h3 : Accessible 3 m3 s) :
    ∃ t, exec i s = .next t ∧ StoredAndAdvanced (touched 1 m1 s ++ touched 2 m2 s ++ touched 3 m3 s)
      (operandAddr 3 m3 s) v 4 s t := by
  have hc := h.completes h1 h2 (rangeFault_eq_none.mpr hv) h3
  rwa [toInt_ofInt_of_inI64 hv] at hc

/-- A result out of range is found before the destination is looked at (41_alu.md R105). -/
theorem arith_overflows (h : AluShape i m1 m2 m3 (rangeFault v) r s) (h1 : Accessible 1 m1 s)
    (h2 : Accessible 2 m2 s) (hv : ¬ InI64 v) : ∃ t, exec i s = .next t ∧ FaultEntered .overflow v s t := by
  have hx : rangeFault v = some (.overflow, v) := if_neg hv
  exact h.enters (.inr (.inr ⟨h1, h2, by rw [hx, Option.some_or]⟩))

theorem arith_enters (h : AluShape i m1 m2 m3 (rangeFault v) r s) (c : FCause) (x : Int)
    (hf : paramFault 1 m1 s = some (c, x) ∨ Accessible 1 m1 s ∧ paramFault 2 m2 s = some (c, x) ∨
      Accessible 1 m1 s ∧ Accessible 2 m2 s ∧ InI64 v ∧ paramFault 3 m3 s = some (c, x)) :
    ∃ t, exec i s = .next t ∧ FaultEntered c x s t := by
  refine h.enters (hf.imp_right (Or.imp_right ?_))
  rintro ⟨h1, h2, hv, h3⟩
  exact ⟨h1, h2, by rw [rangeFault_eq_none.mpr hv, Option.none_or, h3]⟩

/-! ### With the truth word of LT and EQ -/

theorem compare_completes {p : Prop} [Decidable p] (h : AluShape i m1 m2 m3 none (truthWord (decide p)) s)
    (h1 : Accessible 1 m1 s) (h2 : Accessible 2 m2 s) (h3 : Accessible 3 m3 s) :
    ∃ t, exec i s = .next t ∧ StoredAndAdvanced (touched 1 m1 s ++ touched 2 m2 s ++ touched 3 m3 s)
      (operandAddr 3 m3 s) (if p then 1 else 0) 4 s t := by
  simpa only [toInt_truthWord, decide_eq_true_eq] using h.completes h1 h2 rfl h3

end AluShape

/-! ### The four instructions -/

/-- Settles O11: the shape with the exact sum, range-checked. -/
theorem addFollowsItsRule : Obligations.AddFollowsItsRule := fun m1 m2 m3 s =>
  have h := aluShape_add m1 m2 m3 s
  ⟨(decodeAndEncodeAreInverse.1 (.add m1 m2 m3)).1, h.arith_completes, h.arith_overflows, h.arith_enters⟩

/-- Settles O12: the shape with the exact product, range-checked. -/
theorem mulFollowsItsRule : Obligations.MulFollowsItsRule := fun m1 m2 m3 s =>
  have h := aluShape_mul m1 m2 m3 s
  ⟨(decodeAndEncodeAreInverse.1 (.mul m1 m2 m3)).1, h.arith_completes, h.arith_overflows, h.arith_enters⟩

/-- Settles O13: the shape with no check of the result, which is the truth word of the signed comparison. -/
theorem lessThanFollowsItsRule : Obligations.LessThanFollowsItsRule := fun m1 m2 m3 s =>
  have h := aluShape_lt m1 m2 m3 s
  ⟨(decodeAndEncodeAreInverse.1 (.lt m1 m2 m3)).1, h.compare_completes, fun _ _ => h.enters⟩

/-- Settles O14: the shape with no check of the result, which is the truth word of equality. -/
theorem equalToFollowsItsRule : Obligations.EqualToFollowsItsRule := fun m1 m2 m3 s =>
  have h := aluShape_eq m1 m2 m3 s
  ⟨(decodeAndEncodeAreInverse.1 (.eq m1 m2 m3)).1, h.compare_completes, fun _ _ => h.enters⟩

/-- Settles O21: each of the four has the shape, whose frame this is. -/
theorem frameOfArithmeticAndComparison : Obligations.FrameOfArithmeticAndComparison := by
  intro i m1 m2 m3 s t hi ht
  have hshape : ∃ check r, AluShape i m1 m2 m3 check r s := by
    rcases hi with rfl | rfl | rfl | rfl
    · exact ⟨_, _, aluShape_add m1 m2 m3 s⟩
    · exact ⟨_, _, aluShape_mul m1 m2 m3 s⟩
    · exact ⟨_, _, aluShape_lt m1 m2 m3 s⟩
    · exact ⟨_, _, aluShape_eq m1 m2 m3 s⟩
  obtain ⟨_, _, h⟩ := hshape
  obtain ⟨hmem, hrest⟩ := h.frame ht
  exact ⟨fun d hd a ha => hmem a (hd ▸ ha), hrest⟩

end Sys2Proof.Machine
end

section
/-! PROOFS. JT and JF (42_control.md R120 to R122): one shape, proved for any condition and read off for each of the
two. -/

namespace Sys2Proof.Machine

/-! ### The jump on a condition -/

section
variable (p : Int → Prop) [DecidablePred p] {m1 m2 : Mode} {s : State}

/-- The target becomes `pc`, whether an address exists there or not (42_control.md R120). -/
theorem jump_taken (h1 : Accessible 1 m1 s) (h2 : Accessible 2 m2 s) (hc : p (operandWord 1 m1 s).toInt)
    (ht : 0 ≤ (operandWord 2 m2 s).toInt) :
    (jump (fun c => decide (p c)) m1 m2 s).outcome =
      .next { s with pc := operandWord 2 m2 s, len := lenAfter (touched 1 m1 s ++ touched 2 m2 s) s.len } := by
  rw [jump_noFault h1 h2 fun h => absurd h.2 (not_lt.mpr ht), jumpEffect, if_pos (decide_eq_true hc)]
  rfl

/-- A jump that is not taken ignores its target. Its second parameter lies in memory, so `pc + 3` is exact. -/
theorem jump_notTaken (h1 : Accessible 1 m1 s) (h2 : Accessible 2 m2 s) (hc : ¬ p (operandWord 1 m1 s).toInt) :
    ∃ u, (jump (fun c => decide (p c)) m1 m2 s).outcome = .next u ∧ u.pc.toInt = s.pc.toInt + 3 ∧
      u = { s with pc := u.pc, len := lenAfter (touched 1 m1 s ++ touched 2 m2 s) s.len } := by
  rw [jump_noFault h1 h2 fun h => hc (of_decide_eq_true h.1), jumpEffect, if_neg (by simpa using hc)]
  exact ⟨_, rfl, toInt_advance h2.1 (Nat.le_refl 3), rfl⟩

/-- A taken jump to a negative target raises at the jump (42_control.md R122). -/
theorem jump_negative (h1 : Accessible 1 m1 s) (h2 : Accessible 2 m2 s) (hc : p (operandWord 1 m1 s).toInt)
    (ht : (operandWord 2 m2 s).toInt < 0) :
    ∃ u, (jump (fun c => decide (p c)) m1 m2 s).outcome = .next u ∧
      FaultEntered .negativeAddress (operandWord 2 m2 s).toInt s u :=
  (jump_faults (firstFault_of_sources (.inr (.inr ⟨h1, h2, if_pos ⟨decide_eq_true hc, ht⟩⟩)))).outcome

/-- Both operands are read, taken or not (40_engine.md R87), so a fault in either is entered. -/
theorem jump_operand_fault {f : FCause} {x : Int}
    (h : paramFault 1 m1 s = some (f, x) ∨ Accessible 1 m1 s ∧ paramFault 2 m2 s = some (f, x)) :
    ∃ u, (jump (fun c => decide (p c)) m1 m2 s).outcome = .next u ∧ FaultEntered f x s u :=
  (jump_faults (firstFault_of_sources (h.imp_right .inl))).outcome

end

/-! ### The two instructions -/

/-- Settles O15: the jump whose condition is that the word is not 0. -/
theorem jumpIfTrueFollowsItsRule : Obligations.JumpIfTrueFollowsItsRule := fun m1 m2 m3 _ =>
  ⟨(decodeAndEncodeAreInverse.1 (.jt m1 m2 m3)).1, jump_taken (· ≠ 0),
    fun h1 h2 hc => jump_notTaken (· ≠ 0) h1 h2 (not_not.mpr hc), jump_negative (· ≠ 0),
    fun _ _ => jump_operand_fault (· ≠ 0)⟩

/-- Settles O16: the jump whose condition is that the word is 0. -/
theorem jumpIfFalseFollowsItsRule : Obligations.JumpIfFalseFollowsItsRule := fun m1 m2 m3 _ =>
  ⟨(decodeAndEncodeAreInverse.1 (.jf m1 m2 m3)).1, jump_taken (· = 0), jump_notTaken (· = 0), jump_negative (· = 0),
    fun _ _ => jump_operand_fault (· = 0)⟩

end Sys2Proof.Machine
end

section
/-! PROOFS. Input and output (43_io.md R130 to R135): what IN and OUT do, the frames of IN and of the instructions that
store nothing, and suspension, after which a run goes on as if the input had been there from the start. -/

namespace Sys2Proof.Machine

/-! ### Input -/

section
variable {m1 m2 m3 : Mode} {s : State} {v : Word} {rest : List Word}

/-- An Input on an empty queue does not look at its destination (43_io.md R132). -/
theorem exec_inp_empty (hq : s.inq = []) : exec (.inp m1 m2 m3) s = .next (s.setEng .suspended) := by
  have hf : firstFault (.inp m1 m2 m3) s = none := if_pos hq
  rw [exec_of_noFault hf]
  simp only [effect, hq]

theorem effect_inp_cons (hq : s.inq = v :: rest) : effect (.inp m1 m2 m3) s = popEffect m1 v rest s := by
  simp only [effect, hq]

theorem firstFault_inp_cons (hq : s.inq = v :: rest) : firstFault (.inp m1 m2 m3) s = paramFault 1 m1 s :=
  if_neg (by simp [hq])

/-- A popped value is stored where parameter 1 designates. -/
theorem exec_inp_pops (hq : s.inq = v :: rest) (h : Accessible 1 m1 s) :
    exec (.inp m1 m2 m3) s = .next (popEffect m1 v rest s) := by
  rw [exec_of_noFault ((firstFault_inp_cons hq).trans (paramFault_eq_none.mpr h)), effect_inp_cons hq]

/-- A destination that faults has consumed the value (43_io.md R132). -/
theorem exec_inp_fault (hq : s.inq = v :: rest) {c : FCause} {x : Int} (h : paramFault 1 m1 s = some (c, x)) :
    ∃ t, exec (.inp m1 m2 m3) s = .next t ∧ FaultEntered c x (s.setInput rest) t := by
  have he := exec_of_fault ((firstFault_inp_cons (m2 := m2) (m3 := m3) hq).trans h)
  rwa [inputAfterFault, hq] at he

end

/-- Settles O17: the queue is empty, or its front is popped and stored, or popped and lost to a destination's fault. -/
theorem inputFollowsItsRule : Obligations.InputFollowsItsRule := fun m1 m2 m3 _ =>
  ⟨(decodeAndEncodeAreInverse.1 (.inp m1 m2 m3)).1, exec_inp_empty, fun v rest hq =>
    ⟨fun h => ⟨_, exec_inp_pops hq h, popEffect_stored h v rest⟩, fun _ _ => exec_inp_fault hq⟩⟩

/-- Settles O22: the frame of each of the three outcomes. -/
theorem frameOfInput : Obligations.FrameOfInput := by
  intro m1 m2 m3 s t ht
  by_cases hq : s.inq = []
  · rw [exec_inp_empty hq] at ht
    cases ht
    exact ⟨fun _ _ _ _ => rfl, rfl, rfl, rfl, rfl, by simp [hq], .inr (.inl ⟨rfl, hq, rfl⟩)⟩
  · obtain ⟨v, rest, hq⟩ := List.exists_cons_of_ne_nil hq
    rcases exec_cases ht with ⟨_, rfl⟩ | ⟨c, x, _, heq, _⟩
    · rw [effect_inp_cons hq]
      refine ⟨fun d hd a ha => ?_, rfl, rfl, rfl, rfl, by simp [hq], .inl ⟨rfl, rfl, rfl⟩⟩
      rw [popEffect_mem, Memory.read_write, hd, if_neg ha]
    · rw [heq]
      exact ⟨fun _ _ _ _ => rfl, rfl, rfl, rfl, rfl, rfl, .inr (.inr ⟨rfl, rfl, rfl⟩)⟩

/-! ### Output, and the other instructions that store nothing -/

/-- Settles O18: the operand is accessible, so that `pc + 2` is exact, or its fault is entered. -/
theorem outputFollowsItsRule : Obligations.OutputFollowsItsRule := fun m1 m2 m3 s =>
  ⟨(decodeAndEncodeAreInverse.1 (.out m1 m2 m3)).1,
    fun h => ⟨outEffect m1 s, exec_of_noFault (paramFault_eq_none.mpr h), toInt_advance h.1 (Nat.le_refl 2), rfl⟩,
    fun _ _ hf => exec_of_fault (i := .out m1 m2 m3) hf⟩

/-- The instructions but HLT that store nothing: OUT, JT, JF and ARB. -/
def ReadsOnly (i : Instr) (m1 m2 m3 : Mode) : Prop :=
  i = .out m1 m2 m3 ∨ i = .jt m1 m2 m3 ∨ i = .jf m1 m2 m3 ∨ i = .arb m1 m2 m3

theorem ReadsOnly.inputAfterFault_eq {i : Instr} {m1 m2 m3 : Mode} (h : ReadsOnly i m1 m2 m3) (s : State) :
    inputAfterFault i s = s.inq := by
  rcases h with rfl | rfl | rfl | rfl <;> rfl

/-- Of the registers the effect of such an instruction writes `pc`, and `rb` or `outq` where its rule says so. -/
theorem ReadsOnly.effect_frame {i : Instr} {m1 m2 m3 : Mode} (h : ReadsOnly i m1 m2 m3) (s : State) :
    (effect i s).mem = s.mem ∧ (effect i s).inq = s.inq ∧ (effect i s).eng = s.eng ∧
    (i ≠ .arb m1 m2 m3 → (effect i s).rb = s.rb) ∧ (i ≠ .out m1 m2 m3 → (effect i s).outq = s.outq) := by
  rcases h with rfl | rfl | rfl | rfl <;> simp [effect]

/-- Settles O23: HLT changes `eng` alone; each of the others has its effect or enters a fault. -/
theorem frameOfInstructionsThatStoreNothing : Obligations.FrameOfInstructionsThatStoreNothing := by
  intro i m1 m2 m3 s t hi ht
  by_cases hhlt : i = .hlt m1 m2 m3
  · subst hhlt
    cases ht
    exact ⟨fun _ => rfl, rfl, rfl, rfl, fun _ => rfl, fun _ => rfl, fun _ => rfl, fun hne => absurd rfl hne⟩
  · have hreads : ReadsOnly i m1 m2 m3 := by simpa only [ReadsOnly, hhlt, or_false] using hi
    rcases exec_cases ht with ⟨_, rfl⟩ | ⟨c, x, _, heq, _⟩
    · obtain ⟨hmem, hinq, heng, hrb, houtq⟩ := hreads.effect_frame s
      obtain ⟨horig, hlast, hcause, hinfo, _⟩ := effect_constants i s
      exact ⟨fun a => by rw [hmem], hinq, horig, hlast, hrb, houtq, fun h => absurd h hhlt,
        fun _ => .inl ⟨heng, hcause, hinfo⟩⟩
    · rw [hreads.inputAfterFault_eq] at heq
      rw [heq]
      exact ⟨fun _ => rfl, rfl, rfl, rfl, fun _ => rfl, fun _ => rfl, fun h => absurd h hhlt,
        fun _ => .inr ⟨rfl, rfl, rfl, rfl⟩⟩

/-! ### The queues -/

/-- Only an Input's fault takes from `inq`, and only its front (60_exceptions.md R196). -/
theorem inputAfterFault_cases (i : Instr) (s : State) :
    inputAfterFault i s = s.inq ∨ ∃ v m1 m2 m3, s.inq = v :: inputAfterFault i s ∧ i = .inp m1 m2 m3 := by
  cases i with
  | inp m1 m2 m3 =>
    cases hq : s.inq with
    | nil => exact .inl (by rw [inputAfterFault, hq, List.tail_nil])
    | cons v rest => exact .inr ⟨v, m1, m2, m3, by rw [inputAfterFault, hq, List.tail_cons], rfl⟩
  | _ => exact .inl rfl

/-- Settles O34: an effect or a fault pops for an Input only, and an effect appends for an Output only. -/
theorem queuesKeepFifoOrder : Obligations.QueuesKeepFifoOrder := by
  intro s t ht
  by_cases ha : s.Awake
  · rcases step_cases ha ht with ⟨i, hi, _, _, rfl⟩ | ⟨i, _, _, hi, _, _, heq, _⟩ | ⟨_, _, _, _, heq, _⟩
    · refine ⟨(effect_inq i s.fetched).imp_right ?_, (effect_outq i s.fetched).imp_right ?_⟩
      · rintro ⟨v, m1, m2, m3, hpop, rfl⟩
        exact ⟨v, m1, m2, m3, hpop, hi⟩
      · rintro ⟨v, m1, m2, m3, hpush, rfl⟩
        exact ⟨v, m1, m2, m3, hpush, hi⟩
    · rw [heq]
      refine ⟨(inputAfterFault_cases i s).imp_right ?_, .inl rfl⟩
      rintro ⟨v, m1, m2, m3, hpop, rfl⟩
      exact ⟨v, m1, m2, m3, hpop, hi⟩
    · rw [heq]
      exact ⟨.inl rfl, .inl rfl⟩
  · rw [step_of_not_awake ha] at ht
    cases ht
    exact ⟨.inl rfl, .inl rfl⟩

/-! ### Suspension -/

/-- A fetch repeated from the same `pc` grows `len` no further (20_memory.md R42). -/
theorem fetched_setEng_fetched (s : State) (e : Eng) : (s.fetched.setEng e).fetched = s.fetched := by
  have hlen : lenAfter [s.pc.toInt] (lenAfter [s.pc.toInt] s.len) = lenAfter [s.pc.toInt] s.len := by simp [lenAfter]
  exact congrArg (s.setEng .running).withLen hlen

/-- Settles O50: the Input that suspended is fetched again, and `len` has grown already. -/
theorem suspendingAgainChangesNothing : Obligations.SuspendingAgainChangesNothing := by
  intro s t ht he ha
  obtain ⟨⟨m1, m2, m3, hi⟩, hq, rfl⟩ := suspends_cases ha ht he
  refine ⟨hq, rfl, ?_⟩
  have hagain : Fetches (s.fetched.setEng .suspended) (.inp m1 m2 m3) := hi
  rw [step_of_empty_input (.inr rfl) hagain hq, fetched_setEng_fetched]

/-! ### Input given later is input given from the start -/

/-- The state with values behind those that `inq` holds. -/
def State.enqueued (s : State) (vs : List Word) : State := s.setInput (s.inq ++ vs)

/-- A step that leaves the core RUNNING does the same with more input behind the queue. -/
theorem step_enqueued {s t : State} (vs : List Word) (ha : s.Awake) (ht : step s = .next t) (he : t.eng = .running) :
    step (s.enqueued vs) = .next (t.enqueued vs) := by
  rcases step_completes_or_faults ha ht with ⟨i, hi, hnone, rfl⟩ | ⟨_, hfaulted, _⟩
  · have hmore : s.fetched.inq ≠ [] ∨ ∀ m1 m2 m3, i ≠ .inp m1 m2 m3 := by
      obtain ⟨_, hnot⟩ := (effect_eng_running_iff i (s := s.fetched) rfl).mp he
      exact (not_and_or.mp hnot).imp_right fun h m1 m2 m3 hinp => h ⟨m1, m2, m3, hinp⟩
    have hf : firstFault i s.fetched = none := by rw [firstFault_fetched, ← stepFault_of_fetches hi, hnone]
    have hstep : step (s.enqueued vs) = exec i (s.fetched.setInput (s.fetched.inq ++ vs)) :=
      step_of_fetches (s := s.enqueued vs) ha hi
    rw [hstep, exec_of_noFault ((firstFault_append hmore).trans hf)]
    exact congrArg Host.Outcome.next (effect_append hmore)
  · rw [hfaulted] at he
    cases he

/-- A run from a state whose fetch has been made already is the run from before that fetch. -/
theorem runLoop_fetched {s u : State} {i : Instr} {m : Nat} (he : s.eng = .running) (hi : Fetches s i)
    (h : runLoop m s.fetched = some u) : runLoop m s = some u := by
  cases m with
  | zero => cases h
  | succ m =>
    obtain ⟨v, hv⟩ := step_next s
    have hsame : step s.fetched = .next v := by
      have hagain : s.fetched.fetched = s.fetched := fetched_setEng_fetched s .running
      rw [step_of_fetches (s := s.fetched) (.inl rfl) hi, hagain, ← step_of_fetches (.inl he) hi, hv]
    rw [runLoop_step he hv, ← runLoop_step (s := s.fetched) rfl hsame, h]

/-- A run loop that suspends, and one that goes on from there with more input, are one run loop that had the input. -/
theorem runLoop_resumes {n m : Nat} {s t u : State} {vs : List Word} (hs : s.eng = .running)
    (hrun : runLoop n s = some t) (ht : t.eng = .suspended)
    (hagain : runLoop m ((t.enqueued vs).setEng .running) = some u) : ∃ k, runLoop k (s.enqueued vs) = some u := by
  induction n generalizing s with
  | zero => simp [runLoop, hs] at hrun
  | succ n ih =>
    obtain ⟨v, hv⟩ := step_next s
    rw [runLoop_step hs hv] at hrun
    by_cases he : v.eng = .running
    · obtain ⟨k, hk⟩ := ih he hrun
      have hstep : step (s.enqueued vs) = .next (v.enqueued vs) := step_enqueued vs (.inl hs) hv he
      exact ⟨k + 1, (runLoop_step (s := s.enqueued vs) hs hstep).trans hk⟩
    · rw [runLoop_stop he] at hrun
      cases hrun
      obtain ⟨⟨m1, m2, m3, hi⟩, _, rfl⟩ := suspends_cases (.inl hs) hv ht
      exact ⟨m, runLoop_fetched (s := s.enqueued vs) hs hi hagain⟩

/-- Settles O49: both RUNs are run loops, of a core that was not halted or faulted, since it suspends. -/
theorem suspendedRunResumesAsIfNeverSuspended : Obligations.SuspendedRunResumesAsIfNeverSuspended := by
  intro n m s t u r q vs hfirst ht hsecond
  change hostRun n s = some (r, t) at hfirst
  change hostRun m (t.enqueued vs) = some (q, u) at hsecond
  have ha : s.Awake := by
    by_contra hn
    rw [hostRun_of_not_awake hn] at hfirst
    cases hfirst
    exact hn (.inr ht)
  rw [hostRun_of_awake ha] at hfirst
  rw [hostRun_of_awake (s := t.enqueued vs) (.inr ht)] at hsecond
  obtain ⟨t', hrun, ⟨⟩⟩ := Option.map_eq_some_iff.mp hfirst
  obtain ⟨u', hagain, ⟨⟩⟩ := Option.map_eq_some_iff.mp hsecond
  obtain ⟨k, hk⟩ := runLoop_resumes (s := s.setEng .running) rfl hrun ht hagain
  refine ⟨k, (hostRun_of_awake (s := s.enqueued vs) ha).trans ?_⟩
  exact congrArg (Option.map fun t => (ranReply t, t)) hk

end Sys2Proof.Machine
end

section
/-! PROOFS. The relative base and the halt (44_relbase_halt.md R150 to R152): what ARB and HLT do, and the core that stands
still. -/

namespace Sys2Proof.Machine

/-! ### RelativeBaseOffset -/

section
variable {m1 m2 m3 : Mode} {s : State}

/-- The operand lies in memory, so `pc + 2` is exact. -/
theorem exec_arb_completes (h : Accessible 1 m1 s) (hr : InI64 (s.rb.toInt + (operandWord 1 m1 s).toInt)) :
    ∃ t, exec (.arb m1 m2 m3) s = .next t ∧ t.rb.toInt = s.rb.toInt + (operandWord 1 m1 s).toInt ∧
      t.pc.toInt = s.pc.toInt + 2 ∧ t = { s with rb := t.rb, pc := t.pc, len := lenAfter (touched 1 m1 s) s.len } := by
  have hf : firstFault (.arb m1 m2 m3) s = none :=
    Option.or_eq_none_iff.mpr ⟨paramFault_eq_none.mpr h, rangeFault_eq_none.mpr hr⟩
  exact ⟨arbEffect m1 s, exec_of_noFault hf, toInt_ofInt_of_inI64 hr, toInt_advance h.1 (Nat.le_refl 2), rfl⟩

/-- A sum out of range is a fault with the exact sum as its information (the spec's decision D2). -/
theorem exec_arb_overflows (h : Accessible 1 m1 s) (hr : ¬ InI64 (s.rb.toInt + (operandWord 1 m1 s).toInt)) :
    ∃ t, exec (.arb m1 m2 m3) s = .next t ∧
      FaultEntered .overflow (s.rb.toInt + (operandWord 1 m1 s).toInt) s t := by
  refine exec_of_fault (i := .arb m1 m2 m3) ?_
  rw [firstFault, paramFault_eq_none.mpr h, Option.none_or, rangeFault, if_neg hr]

/-- A fault of the operand comes before the range check of the sum (60_exceptions.md R197). -/
theorem exec_arb_operand_fault {c : FCause} {x : Int} (h : paramFault 1 m1 s = some (c, x)) :
    ∃ t, exec (.arb m1 m2 m3) s = .next t ∧ FaultEntered c x s t := by
  refine exec_of_fault (i := .arb m1 m2 m3) ?_
  rw [firstFault, h, Option.some_or]

end

/-- Settles O19: the sum is in range, or overflows, or the operand faults. -/
theorem relativeBaseOffsetFollowsItsRule : Obligations.RelativeBaseOffsetFollowsItsRule := fun m1 m2 m3 _ =>
  ⟨(decodeAndEncodeAreInverse.1 (.arb m1 m2 m3)).1, exec_arb_completes, exec_arb_overflows,
    fun _ _ => exec_arb_operand_fault⟩

/-! ### Halt -/

/-- Settles O20: Halt has no check, and its effect is on `eng` alone. -/
theorem haltFollowsItsRule : Obligations.HaltFollowsItsRule := fun m1 m2 m3 _ =>
  ⟨(decodeAndEncodeAreInverse.1 (.hlt m1 m2 m3)).1, exec_of_noFault (i := .hlt m1 m2 m3) rfl⟩

/-- Settles O29: neither STEP nor RUN wakes such a core. -/
theorem haltedAndFaultedCoresStandStill : Obligations.HaltedAndFaultedCoresStandStill := by
  intro fuel s he
  have hn : ¬ s.Awake := not_awake_iff.mpr he
  have hstep : step s = .next s := step_of_not_awake hn
  exact ⟨hstep, congrArg some (hostStep_eq hstep), hostRun_of_not_awake hn⟩

end Sys2Proof.Machine
end

section
/-! PROOFS. The commands of one core (45_host_port.md R161 to R174, R176): what each that runs no step answers when it
is served and when it is refused, and what is left of them in FAULTED. -/

namespace Sys2Proof.Machine

/-- Settles O39: what each command leaves meets the invariant, RUN being a sequence of steps. -/
theorem everyCommandKeepsTheInvariant : Obligations.EveryCommandKeepsTheInvariant :=
  fun _ _ _ _ _ hinv hsnap h => hinv.of_served hsnap (served_of_serve h)

/-! ### Served or refused, command by command -/

section
variable (fuel : Nat) {s : State}

theorem serve_load_of_fits {ws : List Word} (hne : ws ≠ []) (hle : ws.length ≤ s.memWords) :
    serve fuel (.load ws) s = some (.ok, State.loaded ws s.lastAddr) :=
  congrArg some (if_neg (not_or.mpr ⟨hne, hle.not_gt⟩))

theorem serve_load_refused {ws : List Word} (h : ws = [] ∨ s.memWords < ws.length) :
    serve fuel (.load ws) s = some (.refused, s) :=
  congrArg some (if_pos h)

theorem serve_poke_of_legal {a : Int} (v : Word) (he : s.eng ≠ .faulted) (ha : s.Legal a) :
    serve fuel (.poke a v) s = some (.ok, (s.grow a.toNat).store a.toNat v) :=
  congrArg some (if_neg (not_or.mpr ⟨he, not_not.mpr ha⟩))

theorem serve_poke_refused {a : Int} (v : Word) (h : s.eng = .faulted ∨ ¬ s.Legal a) :
    serve fuel (.poke a v) s = some (.refused, s) :=
  congrArg some (if_pos h)

theorem serve_peek_of_legal {a : Int} (ha : s.Legal a) :
    serve fuel (.peek a) s = some (.word (s.mem.read a.toNat), s.grow a.toNat) :=
  congrArg some (if_pos ha)

theorem serve_peek_refused {a : Int} (ha : ¬ s.Legal a) : serve fuel (.peek a) s = some (.refused, s) :=
  congrArg some (if_neg ha)

theorem serve_enq (v : Word) (he : s.eng ≠ .faulted) :
    serve fuel (.enq v) s = some (.ok, s.setInput (s.inq ++ [v])) :=
  congrArg some (if_neg he)

theorem serve_outClear (he : s.eng ≠ .faulted) : serve fuel .outClear s = some (.ok, { s with outq := [] }) :=
  congrArg some (if_neg he)

theorem serve_reset (he : s.eng ≠ .faulted) :
    serve fuel .reset s = some (.ok,
      { s with mem := Memory.ofWords 0 s.orig, len := s.olen, pc := 0, rb := 0, outq := [], eng := .running }) :=
  congrArg some (if_neg he)

theorem serve_install (snap : Snapshot) (he : s.eng ≠ .faulted) :
    serve fuel (.install snap) s = some (.ok,
      { s with mem := snap.mem, len := snap.len, pc := snap.pc, rb := snap.rb,
               eng := if s.eng = .suspended then .running else s.eng }) :=
  congrArg some (if_neg he)

end

/-- The commands that R176 refuses in FAULTED: those that would change what the fault left. -/
def RefusedInFaulted (c : Command) : Prop :=
  (∃ v, c = .enq v) ∨ (∃ a v, c = .poke a v) ∨ c = .outClear ∨ c = .reset ∨ ∃ snap, c = .install snap

theorem serve_faulted_refused (fuel : Nat) {c : Command} {s : State} (he : s.eng = .faulted) (hc : RefusedInFaulted c) :
    serve fuel c s = some (.refused, s) := by
  rcases hc with ⟨v, rfl⟩ | ⟨a, v, rfl⟩ | rfl | rfl | ⟨snap, rfl⟩
  · exact congrArg some (if_pos he)
  · exact serve_poke_refused fuel v (.inl he)
  · exact congrArg some (if_pos he)
  · exact congrArg some (if_pos he)
  · exact congrArg some (if_pos he)

/-! ### The rules of the commands -/

/-- A loaded memory reads the loaded words from address 0 on, and 0 beyond them. -/
theorem read_loadedWords (ws : List Word) (a : Nat) : (Memory.ofWords 0 ws).read a = ws.getD a 0 :=
  (Memory.read_ofWords ws 0 a).trans (if_pos (Nat.zero_le a))

/-- Settles O40: LOAD is served exactly when there are words and they fit. -/
theorem loadBuildsTheLoadState : Obligations.LoadBuildsTheLoadState :=
  fun fuel ws _ => ⟨fun hne hle => ⟨_, serve_load_of_fits fuel hne hle, read_loadedWords ws,
    rfl, rfl, rfl, rfl, rfl, rfl, rfl, rfl, rfl, rfl, rfl⟩, serve_load_refused fuel⟩

/-- Settles O41: RESET is refused in FAULTED alone, and what it restores is what a LOAD of the original puts in memory. -/
theorem resetRestoresTheOriginal : Obligations.ResetRestoresTheOriginal :=
  fun fuel s => ⟨fun he => ⟨_, serve_reset fuel he, read_loadedWords s.orig, rfl⟩,
    fun he => serve_faulted_refused fuel he (by simp [RefusedInFaulted])⟩

/-- Settles O42: both commands are decided by the address check, POKE by `eng` as well. -/
theorem pokeAndPeekReachOneWord : Obligations.PokeAndPeekReachOneWord := by
  intro fuel a v s
  have illegal (h : a < 0 ∨ s.memWords ≤ a) : ¬ s.Legal a := fun ⟨_, _⟩ => by omega
  refine ⟨fun he h0 hm => ?poke, fun h => serve_poke_refused fuel v (h.imp_right illegal),
    fun h0 hm => serve_peek_of_legal fuel ⟨h0, hm⟩, fun h => serve_peek_refused fuel (illegal h)⟩
  case poke => exact ⟨_, serve_poke_of_legal fuel v he ⟨h0, hm⟩, Memory.read_write s.mem a.toNat v, rfl⟩

/-- Settles O43: ENQ and OUT_CLEAR are decided by `eng`, the two readers by nothing. -/
theorem queueAndStatusCommandsFollowTheirRules : Obligations.QueueAndStatusCommandsFollowTheirRules :=
  fun fuel v _ => ⟨fun he => ⟨serve_enq fuel v he, serve_outClear fuel he⟩,
    fun he => ⟨serve_faulted_refused fuel he (by simp [RefusedInFaulted]),
      serve_faulted_refused fuel he (by simp [RefusedInFaulted])⟩, rfl, rfl⟩

/-- Settles O44: the snapshot is the one CAPTURE answers, and INSTALL is refused in FAULTED alone. -/
theorem installOverwritesWithTheCapturedState : Obligations.InstallOverwritesWithTheCapturedState :=
  fun fuel _ _ => ⟨_, rfl, serve_install fuel _, fun he => serve_faulted_refused fuel he (by simp [RefusedInFaulted])⟩

/-! ### The faulted core -/

/-- RUN and STEP report a fault and change nothing (45_host_port.md R176). -/
theorem serve_faulted_ran (fuel : Nat) {c : Command} {s : State} (he : s.eng = .faulted) (hc : c = .run ∨ c = .step) :
    serve fuel c s = some (.ran .faulted (some (s.fcause, s.finfo)), s) := by
  obtain ⟨_, hstep, hrun⟩ := haltedAndFaultedCoresStandStill fuel s (.inr he)
  have hreply : ranReply s = .ran .faulted (some (s.fcause, s.finfo)) := by simp [ranReply, he]
  rcases hc with rfl | rfl
  · rw [hrun, hreply]
  · rw [hstep, hreply]

/-- No command but LOAD changes a faulted core in more than `len`, and that only by PEEK (45_host_port.md R176). -/
theorem serve_faulted_keeps {fuel : Nat} {c : Command} {s t : State} {r : Reply} (he : s.eng = .faulted)
    (h : serve fuel c s = some (r, t)) (hload : ∀ ws, c ≠ .load ws) : t = s.withLen t.len := by
  cases c with
  | load ws => exact absurd rfl (hload ws)
  | peek a =>
    by_cases ha : s.Legal a
    · rw [serve_peek_of_legal fuel ha] at h
      cases h
      rfl
    · rw [serve_peek_refused fuel ha] at h
      cases h
      rfl
  | run | step =>
    rw [serve_faulted_ran fuel he (by simp)] at h
    cases h
    rfl
  | enq _ | poke _ _ | outClear | reset | install _ =>
    rw [serve_faulted_refused fuel he (by simp [RefusedInFaulted])] at h
    cases h
    rfl
  | outRead | status | capture =>
    cases h
    rfl

theorem eq_loaded_of_serve_load {fuel : Nat} {ws : List Word} {s t : State} (h : serve fuel (.load ws) s = some (.ok, t)) :
    t = State.loaded ws s.lastAddr := by
  by_cases hw : ws = [] ∨ s.memWords < ws.length
  · rw [serve_load_refused fuel hw] at h
    cases h
  · obtain ⟨hne, hle⟩ := not_or.mp hw
    rw [serve_load_of_fits fuel hne (not_lt.mp hle)] at h
    cases h
    rfl

/-- Settles O45: the refused commands, the readers, RUN and STEP, and LOAD, which alone changes more than `len`. -/
theorem faultedCoreServesOnlyReads : Obligations.FaultedCoreServesOnlyReads := by
  intro fuel c s t r he h
  refine ⟨fun hc => ?refused, fun hc => ?reads, fun hc => ?ran, fun hload => ?keeps, fun ws hc hr => ?load⟩
  case refused => simpa [serve_faulted_refused fuel he hc, eq_comm] using h
  case reads =>
    rcases hc with rfl | rfl | rfl | ⟨a, rfl, ha⟩
    · cases h
      nofun
    · cases h
      nofun
    · cases h
      nofun
    · rw [serve_peek_of_legal fuel ha] at h
      cases h
      nofun
  case ran => simpa [serve_faulted_ran fuel he hc, eq_comm] using h
  case keeps =>
    rw [serve_faulted_keeps he h hload]
    exact ⟨he, rfl, rfl, rfl, rfl⟩
  case load =>
    subst hc hr
    rw [eq_loaded_of_serve_load h]
    exact ⟨rfl, rfl, rfl⟩

/-! ### The refused command -/

theorem ranReply_ne_refused (s : State) : ranReply s ≠ .refused := by simp [ranReply]

/-- RUN reports the state it leaves (45_host_port.md R167). -/
theorem hostRun_reply {n : Nat} {s t : State} {r : Reply} (h : hostRun n s = some (r, t)) : r = ranReply t := by
  by_cases ha : s.Awake
  · rw [hostRun_of_awake ha] at h
    obtain ⟨u, _, h⟩ := Option.map_eq_some_iff.mp h
    cases h
    rfl
  · rw [hostRun_of_not_awake ha] at h
    cases h
    rfl

theorem eq_of_ite_refused {s t : State} {p : Prop} [Decidable p] {a b : Reply × State} (ha : a.1 = .refused → a.2 = s)
    (hb : b.1 = .refused → b.2 = s) (h : some (if p then a else b) = some (.refused, t)) : t = s := by
  split at h
  · cases h
    exact ha rfl
  · cases h
    exact hb rfl

/-- Settles O46: the refusing branch of each command answers the state as it was, and no other branch answers REFUSED. -/
theorem refusedCommandsChangeNothing : Obligations.RefusedCommandsChangeNothing := by
  intro fuel c s t h
  cases c with
  | load _ | poke _ _ | enq _ | outClear | reset | install _ => exact eq_of_ite_refused (fun _ => rfl) (by nofun) h
  | peek a => exact eq_of_ite_refused (by nofun) (fun _ => rfl) h
  | run => exact absurd (hostRun_reply h).symm (ranReply_ne_refused t)
  | step =>
    obtain ⟨u, hu⟩ := step_next s
    simp only [serve, hostStep_eq hu, Option.some.injEq, Prod.mk.injEq, ranReply_ne_refused, false_and] at h
  | outRead | status | capture => cases h

end Sys2Proof.Machine
end

section
/-! PROOFS. RUN and repeated STEPs (45_host_port.md R167, R168; 40_engine.md R88): both are a sequence of one or more steps
that ends outside RUNNING. -/

namespace Sys2Proof.Machine

/-! ### A sequence of STEPs -/

theorem serveAll_steps_succ {fuel n : Nat} {s u : State} (h : step s = .next u) :
    serveAll fuel (List.replicate (n + 1) .step) s =
      (serveAll fuel (List.replicate n .step) u).map fun a => (ranReply u :: a.1, a.2) := by
  have hserve : serve fuel .step s = some (ranReply u, u) := congrArg some (hostStep_eq h)
  rw [List.replicate_succ, serveAll, hserve]
  cases h : serveAll fuel (List.replicate n .step) u <;> simp [h]

/-- A sequence of STEPs that is not empty makes a step and goes on as the sequence that is one shorter. -/
theorem serveAll_steps_cases {fuel n : Nat} {s t : State} {rs : List Reply}
    (h : serveAll fuel (List.replicate (n + 1) .step) s = some (rs, t)) :
    ∃ u qs, step s = .next u ∧ serveAll fuel (List.replicate n .step) u = some (qs, t) ∧ rs = ranReply u :: qs := by
  obtain ⟨u, hu⟩ := step_next s
  rw [serveAll_steps_succ hu] at h
  obtain ⟨⟨qs, v⟩, hqs, h⟩ := Option.map_eq_some_iff.mp h
  cases h
  exact ⟨u, qs, hu, hqs, rfl⟩

theorem stepsTo_of_serveAll {fuel n : Nat} {s t : State} {rs : List Reply}
    (h : serveAll fuel (List.replicate n .step) s = some (rs, t)) : StepsTo s t := by
  induction n generalizing s rs with
  | zero =>
    cases h
    exact .refl
  | succ n ih =>
    obtain ⟨u, qs, hu, hqs, _⟩ := serveAll_steps_cases h
    exact .head hu (ih hqs)

theorem serveAll_of_stepsTo (fuel : Nat) {s t : State} (h : StepsTo s t) :
    ∃ n rs, serveAll fuel (List.replicate n .step) s = some (rs, t) := by
  induction h using Relation.ReflTransGen.head_induction_on with
  | refl => exact ⟨0, [], rfl⟩
  | head hu _ ih =>
    obtain ⟨n, rs, h⟩ := ih
    exact ⟨n + 1, _, by rw [serveAll_steps_succ hu, h]; rfl⟩

/-- The last of a sequence of STEPs reports the state it leaves. The report of the start stands before the replies, so that
the empty sequence is no exception. -/
theorem serveAll_steps_getLast {fuel n : Nat} {s t : State} {rs : List Reply}
    (h : serveAll fuel (List.replicate n .step) s = some (rs, t)) :
    (ranReply s :: rs).getLast? = some (ranReply t) := by
  induction n generalizing s rs with
  | zero =>
    cases h
    rfl
  | succ n ih =>
    obtain ⟨u, qs, _, hqs, rfl⟩ := serveAll_steps_cases h
    exact List.getLast?_cons_cons.trans (ih hqs)

/-! ### RUN as a sequence of steps -/

/-- `t` is reached from `s` by one or more steps and is not RUNNING. -/
def StopsAt (s t : State) : Prop := t.eng ≠ .running ∧ ∃ u, step s = .next u ∧ StepsTo u t

/-- A step that leaves RUNNING leaves a core that further steps do not change: it stands still, or suspends again. -/
theorem step_of_stopped {s t : State} (h : step s = .next t) (ht : t.eng ≠ .running) : step t = .next t := by
  by_cases hs : t.eng = .suspended
  · by_cases ha : s.Awake
    · exact (suspendingAgainChangesNothing s t h hs ha).2.2
    · rw [step_of_not_awake ha] at h
      cases h
      exact absurd (.inr hs) ha
  · exact step_of_not_awake (not_or.mpr ⟨ht, hs⟩)

/-- Steps that end outside RUNNING are a run loop, where the start, if it is outside RUNNING, is one they do not change. -/
theorem runLoop_of_stepsTo {s t : State} (h : StepsTo s t) (ht : t.eng ≠ .running)
    (hs : s.eng ≠ .running → step s = .next s) : ∃ n, runLoop n s = some t := by
  induction h using Relation.ReflTransGen.head_induction_on with
  | refl => exact ⟨0, runLoop_stop ht⟩
  | @head s u hu _ ih =>
    obtain ⟨n, hn⟩ := ih (step_of_stopped hu)
    by_cases he : s.eng = .running
    · exact ⟨n + 1, (runLoop_step he hu).trans hn⟩
    · rw [hs he] at hu
      cases hu
      exact ⟨n, hn⟩

/-- Steps from a core that a step does not change do not change it. -/
theorem StepsTo.eq_of_still {s t : State} (h : StepsTo s t) (hs : step s = .next s) : t = s := by
  induction h with
  | refl => rfl
  | tail _ hu ih =>
    rw [ih, hs] at hu
    cases hu
    rfl

theorem stopsAt_of_hostRun {fuel : Nat} {s t : State} {r : Reply} (h : hostRun fuel s = some (r, t)) : StopsAt s t := by
  by_cases ha : s.Awake
  · rw [hostRun_of_awake ha] at h
    obtain ⟨_, hloop, h⟩ := Option.map_eq_some_iff.mp h
    cases h
    cases fuel with
    | zero => simp [runLoop] at hloop
    | succ n =>
      obtain ⟨u, hu⟩ := step_next (s.setEng .running)
      rw [runLoop_step rfl hu] at hloop
      exact ⟨runLoop_ends hloop, u, step_setRunning ha ▸ hu, stepsTo_of_runLoop hloop⟩
  · rw [hostRun_of_not_awake ha] at h
    cases h
    exact ⟨fun he => ha (.inl he), s, step_of_not_awake ha, .refl⟩

theorem hostRun_of_stopsAt {s t : State} (h : StopsAt s t) : ∃ fuel, hostRun fuel s = some (ranReply t, t) := by
  obtain ⟨ht, u, hu, hut⟩ := h
  by_cases ha : s.Awake
  · obtain ⟨n, hn⟩ := runLoop_of_stepsTo hut ht (step_of_stopped hu)
    have hloop : runLoop (n + 1) (s.setEng .running) = some t :=
      (runLoop_step rfl ((step_setRunning ha).trans hu)).trans hn
    exact ⟨n + 1, by rw [hostRun_of_awake ha, hloop]; rfl⟩
  · have hs := step_of_not_awake ha
    rw [hs] at hu
    cases hu
    rw [hut.eq_of_still hs]
    exact ⟨0, hostRun_of_not_awake ha⟩

/-- Settles O48: both stop at the states outside RUNNING that one or more steps reach, and both report the state they
leave. -/
theorem runEqualsRepeatedSteps : Obligations.RunEqualsRepeatedSteps := by
  refine fun s t => ⟨⟨?run_of_steps, ?steps_of_run⟩, fun fuel r h => hostRun_reply h, ?last⟩
  case run_of_steps =>
    rintro ⟨n, rs, hn, h, ht⟩
    obtain ⟨n, rfl⟩ := Nat.exists_eq_add_of_le' hn
    obtain ⟨u, qs, hu, hqs, _⟩ := serveAll_steps_cases h
    obtain ⟨fuel, hrun⟩ := hostRun_of_stopsAt ⟨ht, u, hu, stepsTo_of_serveAll hqs⟩
    exact ⟨fuel, _, hrun⟩
  case steps_of_run =>
    rintro ⟨fuel, r, h⟩
    obtain ⟨ht, u, hu, hut⟩ := stopsAt_of_hostRun h
    obtain ⟨n, qs, hqs⟩ := serveAll_of_stepsTo 0 hut
    exact ⟨n + 1, ranReply u :: qs, Nat.le_add_left 1 n, by rw [serveAll_steps_succ hu, hqs]; rfl, ht⟩
  case last =>
    intro n rs hn h
    obtain ⟨n, rfl⟩ := Nat.exists_eq_add_of_le' hn
    obtain ⟨u, qs, _, hqs, rfl⟩ := serveAll_steps_cases h
    exact serveAll_steps_getLast hqs

end Sys2Proof.Machine
end

section
/-! PROOFS. The cores side by side (45_host_port.md R175) and the port as the host sees it (R173, R174; log entry 15). -/

namespace Sys2Proof.Machine

/-! ### Cores side by side -/

/-- A command to a core replaces that core's state by the one it is left in. -/
theorem Cores.serve_cases {fuel k : Nat} {c : Command} {cs ds : Cores} {r : Reply}
    (h : Cores.serve fuel k c cs = some (r, ds)) :
    ∃ s t, cs[k]? = some s ∧ Machine.serve fuel c s = some (r, t) ∧ ds = cs.set k t := by
  unfold Cores.serve at h
  split at h
  · cases h
  · next s hs =>
    obtain ⟨⟨a, t⟩, ht, h⟩ := Option.map_eq_some_iff.mp h
    cases h
    exact ⟨s, t, hs, ht, rfl⟩

/-- Settles O52: the state of core `k` is replaced, and a place of a list that is not `k` keeps what it holds. -/
theorem instancesAreIndependent : Obligations.InstancesAreIndependent := by
  intro fuel k c cs ds r h
  obtain ⟨s, t, hs, ht, rfl⟩ := Cores.serve_cases h
  obtain ⟨hk, _⟩ := List.getElem?_eq_some_iff.mp hs
  exact ⟨⟨s, t, hs, ht, List.getElem?_set_self hk⟩, fun j hj => List.getElem?_set_ne hj.symm⟩

/-! ### Snapshots at the port -/

/-- A command that leaves its core as it was changes at most the snapshots held. -/
theorem Port.serve_of_core_kept {fuel k : Nat} {c : HostCommand} {d : Command} {p : Port} {s : State} {a : Reply}
    (hd : HostCommand.resolve p.held c = some d) (hs : p.cores[k]? = some s) (h : Machine.serve fuel d s = some (a, s)) :
    Port.serve fuel k c p = some (Reply.shown p.held a, { p with held := Reply.hold p.held a }) := by
  obtain ⟨hk, hget⟩ := List.getElem?_eq_some_iff.mp hs
  have hset : p.cores.set k s = p.cores := by rw [← hget, List.set_getElem_self]
  rw [Port.serve_resolved hd hs, h, Option.map_some, hset]

/-- Settles O53: CAPTURE leaves its core as it was, and what is shown of a snapshot is how many were held. -/
theorem captureAnswersAnOpaqueToken : Obligations.CaptureAnswersAnOpaqueToken :=
  fun _ _ _ s hs => Port.serve_of_core_kept (a := .snapshot ⟨s.mem, s.len, s.pc, s.rb⟩) rfl hs rfl

theorem HostCommand.resolve_install {held : List Snapshot} {token : Token} {o : Option Snapshot}
    (h : held[token.number]? = o) : HostCommand.resolve held (.install token) = o.map .install :=
  congrArg (Option.map CommandOf.install) h

/-- Snapshots held are added to and never changed or taken away (45_host_port.md R173). -/
theorem Port.held_extended {fuel k : Nat} {c : HostCommand} {p q : Port} {r : HostReply}
    (h : Port.serve fuel k c p = some (r, q)) : ∃ taken, q.held = p.held ++ taken := by
  rcases Port.serve_cases h with ⟨_, _, rfl⟩ | ⟨_, _, a, _, _, _, _, _, rfl⟩
  · exact ⟨[], (List.append_nil _).symm⟩
  · rcases Reply.hold_cases p.held a with hk | ⟨snap, _, hk⟩
    · exact ⟨[], hk.trans (List.append_nil _).symm⟩
    · exact ⟨[snap], hk⟩

/-- Settles O54: the token resolves to the snapshot it stands for, or to nothing, and what is held is only added to. -/
theorem onlyCapturedSnapshotsAreInstalled : Obligations.OnlyCapturedSnapshotsAreInstalled := by
  intro fuel k p s token hs
  refine ⟨fun snap hsnap he => ?_, fun h => ?_, fun c j q r h n hn => ?_⟩
  · rw [Port.serve_resolved (HostCommand.resolve_install hsnap) hs, serve_install fuel snap he]
    rfl
  · cases hheld : p.held[token.number]? with
    | none => exact Port.serve_unresolved (HostCommand.resolve_install hheld)
    | some snap =>
      have he : s.eng = .faulted := h.resolve_left (by simp [hheld])
      exact Port.serve_of_core_kept (HostCommand.resolve_install hheld) hs
        (serve_faulted_refused fuel he (by simp [RefusedInFaulted]))
  · obtain ⟨taken, hq⟩ := Port.held_extended h
    rw [hq, List.getElem?_append_left hn]

end Sys2Proof.Machine
end

section
/-! PROOFS. Faults (60_exceptions.md R196, R197): which fault a step enters, what its entry leaves, and what RUN and STEP
report of it. -/

namespace Sys2Proof.Machine

/-! ### The fault a step enters -/

/-- Fault entry keeps `inq`, so what it leaves there is what it was entered with. -/
theorem FaultEntered.setInput_inq {s t : State} {c : FCause} {x : Int} {q : List Word}
    (h : FaultEntered c x (s.setInput q) t) : FaultEntered c x (s.setInput t.inq) t := by
  have hq : t.inq = q := congrArg State.inq h.1
  rwa [hq]

/-- A step enters the first fault of R197's list, with `inq` as the step leaves it: a faulting Input has
popped its front. -/
theorem faultEntered_of_stepFault {s t : State} {c : FCause} {x : Int} (ha : s.Awake) (ht : step s = .next t)
    (hs : stepFault s = some (c, x)) : FaultEntered c x (s.setInput t.inq) t := by
  rcases step_cases ha ht with ⟨_, _, hnone, _⟩ | ⟨_, d, y, _, hd, _, he⟩ | ⟨d, y, _, hd, he⟩
  · cases hs.symm.trans hnone
  · cases hs.symm.trans hd
    exact he.setInput_inq
  · cases hs.symm.trans hd
    exact FaultEntered.setInput_inq (q := s.inq) he

/-- Settles O24: the fault entered is the first of the list, and a step without one has the effect of its instruction. -/
theorem faultsComeInPriorityOrder : Obligations.FaultsComeInPriorityOrder := by
  intro s ha
  obtain ⟨t, ht⟩ := step_next s
  refine ⟨fun c x hs => ⟨t, ht, faultEntered_of_stepFault ha ht hs⟩, fun hnone => ⟨t, ht, ?_⟩⟩
  rcases step_completes_or_faults ha ht with ⟨i, _, _, rfl⟩ | ⟨hsome, _⟩
  · obtain ⟨_, _, hcause, hinfo, _⟩ := effect_constants i s.fetched
    obtain ⟨_, _, hnotFaulted⟩ := effect_eng i (s := s.fetched) rfl
    exact ⟨hnotFaulted, hcause, hinfo⟩
  · exact absurd hnone hsome

/-! ### What RUN and STEP report -/

theorem ranReply_of_faulted {s : State} (h : s.eng = .faulted) :
    ranReply s = .ran .faulted (some (s.fcause, s.finfo)) := by
  rw [ranReply, if_pos h, h]

/-- A RUN whose first step leaves RUNNING returns after it (40_engine.md R88). -/
theorem hostRun_of_step_stops {s t : State} (ha : s.Awake) (ht : step s = .next t) (he : t.eng ≠ .running)
    (fuel : Nat) : hostRun (fuel + 1) s = some (ranReply t, t) := by
  have hwoken : step (s.setEng .running) = .next t := (step_setRunning ha).trans ht
  rw [hostRun_of_awake ha, runLoop_step rfl hwoken, runLoop_stop he]
  rfl

/-- Settles O25: a step ends FAULTED by the entry of its first fault, which names a cause, and it stops STEP and RUN. -/
theorem faultEntryIsPrecise : Obligations.FaultEntryIsPrecise := by
  intro s t ha ht he
  obtain ⟨_, _, hfaulted, _⟩ := stepFollowsTheEngineTable s t ha ht
  obtain ⟨⟨c, x⟩, hs⟩ := Option.ne_none_iff_exists'.mp (hfaulted.mp he)
  obtain ⟨heq, hlen, _⟩ := faultEntered_of_stepFault ha ht hs
  have hcause : t.fcause = c := congrArg State.fcause heq
  have hinfo : t.finfo = x := congrArg State.finfo heq
  refine ⟨?cause, hlen, ?entry, (queuesKeepFifoOrder s t ht).1, fun fuel => ?report⟩
  case cause => exact hcause ▸ stepFault_namesCause s _ hs
  case entry =>
    rw [hcause, hinfo]
    exact heq
  case report =>
    rw [← ranReply_of_faulted he]
    exact ⟨congrArg some (hostStep_eq ht), hostRun_of_step_stops ha ht (by simp [he]) fuel⟩

end Sys2Proof.Machine
end

section
/-! PROOFS. Reset and hazards (70_reset_and_hazards.md R210, R215): a store is seen by the very next fetch, and the states
after reset and LOAD meet the invariant. -/

namespace Sys2Proof.Machine

/-! ### A store at the place of the next fetch -/

/-- A `MemWrite` that completes was to a legal address, and it stored there. -/
theorem memWrite_eq_ok {s t : State} {a : Int} {v : Word} (h : memWrite a v s = .ok () t) :
    s.Legal a ∧ t = (s.withLen (max s.len (a.toNat + 1))).store a.toNat v := by
  by_cases ha : s.Legal a
  · rw [memWrite_legal ha] at h
    cases h
    exact ⟨ha, rfl⟩
  · obtain ⟨⟨c, x⟩, hf⟩ := Option.ne_none_iff_exists'.mp (mt addrFault_eq_none.mp ha)
    rw [memWrite_fault hf] at h
    cases h

/-- The word a `MemWrite` stored at `pc` is the one the next fetch reads (70_reset_and_hazards.md R215). -/
theorem fetchWord_of_memWrite {s t : State} {a : Int} {v : Word} (h : memWrite a v s = .ok () t) (hpc : t.pc.toInt = a) :
    fetchWord t = v := by
  obtain ⟨_, rfl⟩ := memWrite_eq_ok h
  rw [fetchWord, hpc]
  exact (Memory.read_write s.mem a.toNat v a.toNat).trans (if_pos rfl)

/-- Settles O36: the address stored at is legal, so the next fetch succeeds there and reads the word stored. -/
theorem storedWordIsFetchedAtOnce : Obligations.StoredWordIsFetchedAtOnce := by
  intro s t a v i h hpc ha hd
  have hword : fetchWord t = v := fetchWord_of_memWrite h hpc
  have hlegal : t.Legal t.pc.toInt := by
    obtain ⟨hs, rfl⟩ := memWrite_eq_ok h
    exact hpc ▸ hs
  exact ⟨step_of_fetches ha ⟨hlegal, hword ▸ hd⟩, hword⟩

/-! ### The states after reset and LOAD -/

/-- LOAD materialises exactly the words of the original (10_state.md R29). -/
theorem State.coversOriginal_loaded (ws : List Word) (lastAddr : Fin Config.memWordsMax) :
    (State.loaded ws lastAddr).CoversOriginal := le_rfl

/-- Settles O37: the reset state is that after LOAD of no words, which fit, and LOAD of words that fit gives the invariant. -/
theorem resetAndLoadMeetTheInvariant : Obligations.ResetAndLoadMeetTheInvariant := by
  refine ⟨?inv, ?covers, fun ws lastAddr hfit => ⟨State.inv_loaded hfit, State.coversOriginal_loaded ws lastAddr⟩⟩
  case inv => exact State.reset_eq_loaded ▸ State.inv_loaded (Nat.zero_le _)
  case covers => exact State.reset_eq_loaded ▸ State.coversOriginal_loaded [] Config.resetLastAddr

end Sys2Proof.Machine
end
